-- ==== Sys2Proof/Word.lean ====
section
/-!
DEFINITION. The word types of the VM core: the 3-bit cell of the tape and of the output sequence, and the signed
integer a register holds (00_scope.md section 6.1, 10_state.md R22).
-/

namespace Sys2Proof

/-- A cell: an unsigned 3-bit value, bit 0 least significant (00_scope.md section 6.1; bit numbering D8). -/
abbrev Cell := BitVec 3

/-- What a register holds: a signed integer, never truncated implicitly (10_state.md R22, R23). The reference width is
unbounded; a finite `XLEN` only adds the load-time range check (00_scope.md R5). -/
abbrev RegVal := Int

/-- The literal value of a cell, an integer 0 to 7: `zext_3`, the only extension of the machine (00_scope.md R17). -/
def Cell.toInt3 (c : Cell) : Int := (c.toNat : Int)

end Sys2Proof
end

