-- ==== Sys2Proof/Config.lean ====
section
/-!
DEFINITION. What is fixed before a run and constant during it (10_state.md R21, 00_scope.md section 4): the register
width `XLEN` and the configuration the host supplies in one transaction. `PROG_LEN` is read off the program (R6) and
`OUT_CAP` is unbounded (R7), so neither is a parameter here. The spec leaves no value free: 93_implementation_defined.md
treats no behaviour as "any value", so there is no opaque constant in this model.
-/

namespace Sys2Proof

/-- `XLEN` (00_scope.md R5, decision D1): arbitrary precision, or `n` bits of two's complement with `n ≥ 64`; a width
below 64 cannot be written down. -/
inductive XLen where
  /-- `XLEN = ∞`, the reference value. -/
  | unbounded
  /-- `XLEN = n`, a natural number of at least 64 bits. -/
  | finite (n : Nat) (atLeast64 : 64 ≤ n)
  deriving DecidableEq, Repr

/-- The reference value of `XLEN` (00_scope.md R5). -/
def XLen.reference : XLen := .unbounded

/-- Whether a register of width `XLEN` holds `v`: every integer when unbounded, else the two's complement range
`[-2^(n-1), 2^(n-1)-1]` (00_scope.md R5, 10_state.md R22). -/
def XLen.fits : XLen → RegVal → Bool
  | .unbounded, _ => true
  | .finite n _, v => decide (-(2 : Int) ^ (n - 1) ≤ v) && decide (v ≤ (2 : Int) ^ (n - 1) - 1)

/-- The configuration of one run, as the host sends it (70_reset_and_hazards.md R200, R204): three initial register
values and the HOST'S representation of the tape, whose elements may be wider than a cell (30_encoding.md R80). For the
transaction `RunIteration` the three values are `a`, `b_init`, `c_init`. -/
structure HostConfig where
  /-- `initA`, or `a` of an iteration. -/
  initA : RegVal
  /-- `initB`, or `b_init` of an iteration. -/
  initB : RegVal
  /-- `initC`, or `c_init` of an iteration. -/
  initC : RegVal
  /-- the program tape, as host integers. -/
  prog : List Int
  deriving DecidableEq, Repr

/-- The configuration errors, each with the value it records (60_exceptions.md R171 to R174). A load that answers one
is refused: no state exists (R175). Safe: nothing executes. -/
inductive ConfigError where
  /-- R171: the tape's length is odd; records the length. -/
  | oddLength (len : Nat)
  /-- R172: an element is not in 0 to 7; records the lowest such index and the element. -/
  | cellOutOfRange (index : Nat) (value : Int)
  /-- R173: operand 7 in combo position; records the lowest such even index and the instruction word. -/
  | reservedComboOperand (index : Nat) (word : Nat)
  /-- R174: an initial value does not fit a finite `XLEN`; records the lowest such register and the value. -/
  | registerWidthExceeded (reg : Fin 3) (value : Int)
  deriving DecidableEq, Repr

end Sys2Proof
end

