-- ==== Sys2Proof/Syntax.lean ====
section
/-!
DEFINITION. The instruction set `VM8`: eight opcodes, three formats, one constructor of `Instr` for each row of the
opcode table (30_encoding.md R72, R77). The operand cell is kept uninterpreted, as the spec keeps it: it is resolved
anew each time the instruction executes (R73, 40_fetch_dispatch.md R93).
-/

namespace Sys2Proof

/-- The eight operations an opcode cell selects; the set is closed (30_encoding.md R77, R80). -/
inductive Opcode where
  | adv | bxl | bst | jnz | bxc | out | bdv | cdv
  deriving DecidableEq, Repr

/-- How the operand cell is interpreted (30_encoding.md R72): combo, literal, or not at all. -/
inductive Format where
  | combo | literal | unused
  deriving DecidableEq, Repr

/-- The opcode alone selects the format (30_encoding.md R72). -/
def Opcode.format : Opcode → Format
  | .adv => .combo
  | .bxl => .literal
  | .bst => .combo
  | .jnz => .literal
  | .bxc => .unused
  | .out => .combo
  | .bdv => .combo
  | .cdv => .combo

/-- An instruction with its operand cell; the names of the operands are the spec's: `c` combo, `l` literal, `u` ignored. -/
inductive Instr where
  /-- `A <- tdiv(A, combo(c))` (41_divide.md R110). -/
  | adv (c : Cell)
  /-- `B <- xor(B, lit(l))` (42_bitwise.md R120). -/
  | bxl (l : Cell)
  /-- `B <- mod8(combo(c))` (42_bitwise.md R121). -/
  | bst (c : Cell)
  /-- `if A ≠ 0 then pc <- lit(l)` (43_control.md R130). -/
  | jnz (l : Cell)
  /-- `B <- xor(B, C)`, the operand cell ignored (42_bitwise.md R122). -/
  | bxc (u : Cell)
  /-- `OutAppend(mod8(combo(c)))` (44_output.md R140). -/
  | out (c : Cell)
  /-- `B <- tdiv(A, combo(c))` (41_divide.md R111). -/
  | bdv (c : Cell)
  /-- `C <- tdiv(A, combo(c))` (41_divide.md R112). -/
  | cdv (c : Cell)
  deriving DecidableEq, Repr

/-- The instruction's operation. -/
def Instr.opcode : Instr → Opcode
  | .adv _ => .adv
  | .bxl _ => .bxl
  | .bst _ => .bst
  | .jnz _ => .jnz
  | .bxc _ => .bxc
  | .out _ => .out
  | .bdv _ => .bdv
  | .cdv _ => .cdv

/-- The instruction's operand cell. -/
def Instr.operand : Instr → Cell
  | .adv c => c
  | .bxl l => l
  | .bst c => c
  | .jnz l => l
  | .bxc u => u
  | .out c => c
  | .bdv c => c
  | .cdv c => c

/-- Why a pair of cells is no instruction. There is one reason: all eight opcodes are assigned (30_encoding.md R80). -/
inductive DecodeError where
  /-- a format-`C` opcode with operand 7; carries the instruction word `8·opcode + 7` (30_encoding.md R78, R79). -/
  | reservedCombo (word : Nat)
  deriving DecidableEq, Repr

end Sys2Proof
end

