-- ==== Sys2Proof/WellFormed.lean ====
section
/-!
DEFINITION. Well-formed instructions (30_encoding.md R76, R78) and well-formed programs (30_encoding.md R83), the three
checks of R83 as Booleans: on the host's representation of the tape and on the machine's cells.
-/

namespace Sys2Proof

/-- An instruction is well formed when its operand is not the reserved combo operand 7 (30_encoding.md R76, R78). -/
def Instr.wellFormed (i : Instr) : Bool :=
  i.opcode.format != .combo || i.operand != 7#3

/-- The opcode cells of format `C`: 0, 2, 5, 6 and 7 (30_encoding.md R72, R83 check 3). -/
def isComboOpcode (opcode : Cell) : Bool :=
  opcode == 0#3 || opcode == 2#3 || opcode == 5#3 || opcode == 6#3 || opcode == 7#3

/-- A reserved word: a format-`C` opcode with operand 7 (30_encoding.md R78). -/
def isReservedPair (opcode operand : Cell) : Bool :=
  isComboOpcode opcode && operand == 7#3

/-- R83 check 3: no reserved word in any aligned pair, reachable or not (decision D19). A last cell without a partner
is no pair; check 1 refuses such a tape. -/
def noReservedPair : List Cell → Bool
  | opcode :: operand :: rest => !isReservedPair opcode operand && noReservedPair rest
  | _ => true

/-- `WellFormed(prog)` on a tape of cells: checks 1 and 3 of 30_encoding.md R83; check 2 holds of every cell (R80). -/
def tapeWellFormed (prog : List Cell) : Bool :=
  prog.length % 2 == 0 && noReservedPair prog

/-- R83 check 2 for one element of the host's tape: `0 ≤ v ≤ 7`. -/
def cellInRange (v : Int) : Bool := decide (0 ≤ v) && decide (v ≤ 7)

/-- `WellFormed(prog)` on the host's representation: all three checks of 30_encoding.md R83. -/
def hostTapeWellFormed (prog : List Int) : Bool :=
  prog.length % 2 == 0 && prog.all cellInRange && noReservedPair (prog.map (BitVec.ofInt 3))

end Sys2Proof
end

