-- ==== Sys2Proof/Decode.lean ====
section
/-!
DEFINITION. The decoder and the encoder between pairs of cells and instructions (30_encoding.md R70 to R79), the packed
6-bit instruction word of the opcode table (R71), and the word interface `decodeTableWord`.
-/

namespace Sys2Proof

/-- The opcode map (30_encoding.md R77, 40_fetch_dispatch.md R93): every cell value selects one operation. -/
def Opcode.ofCell (c : Cell) : Opcode :=
  if c = 0#3 then .adv
  else if c = 1#3 then .bxl
  else if c = 2#3 then .bst
  else if c = 3#3 then .jnz
  else if c = 4#3 then .bxc
  else if c = 5#3 then .out
  else if c = 6#3 then .bdv
  else .cdv

/-- The opcode column of 30_encoding.md R77. -/
def Opcode.toCell : Opcode → Cell
  | .adv => 0#3
  | .bxl => 1#3
  | .bst => 2#3
  | .jnz => 3#3
  | .bxc => 4#3
  | .out => 5#3
  | .bdv => 6#3
  | .cdv => 7#3

/-- The instruction of an operation and an uninterpreted operand cell. -/
def Instr.ofParts : Opcode → Cell → Instr
  | .adv, o => .adv o
  | .bxl, o => .bxl o
  | .bst, o => .bst o
  | .jnz, o => .jnz o
  | .bxc, o => .bxc o
  | .out, o => .out o
  | .bdv, o => .bdv o
  | .cdv, o => .cdv o

/-- `IW = 8·opcode + operand`, the packed instruction word (30_encoding.md R71; notation only, decision D8). -/
def packWord (opcode operand : Cell) : Nat := 8 * opcode.toNat + operand.toNat

/-- The two cells of a packed word: `opcode = IW[5:3]`, `operand = IW[2:0]` (30_encoding.md R71). -/
def unpackWord (w : Nat) : Cell × Cell := (BitVec.ofNat 3 (w / 8), BitVec.ofNat 3 w)

/-- Decode an aligned pair of cells (30_encoding.md R70, R77). Total: the five reserved words are refused by name
(R78, R79) and every other pair is an instruction. -/
def decode (opcode operand : Cell) : Except DecodeError Instr :=
  if isReservedPair opcode operand then .error (.reservedCombo (packWord opcode operand))
  else .ok (Instr.ofParts (Opcode.ofCell opcode) operand)

/-- Encode an instruction as its two cells, opcode first (30_encoding.md R70, R77). -/
def encode : Instr → Cell × Cell
  | .adv c => (0#3, c)
  | .bxl l => (1#3, l)
  | .bst c => (2#3, c)
  | .jnz l => (3#3, l)
  | .bxc u => (4#3, u)
  | .out c => (5#3, c)
  | .bdv c => (6#3, c)
  | .cdv c => (7#3, c)

/-- The packed word of an instruction (30_encoding.md R71). -/
def encodeWord (i : Instr) : Nat := packWord (encode i).1 (encode i).2

/-- The cells of a table word of which `nbits` bits are given; the bits above are zero. A word of more than the six
bits an instruction has (30_encoding.md R70) is no instruction word. -/
def tableWordCells (nbits w : Nat) : Option (Cell × Cell) :=
  if w % 2 ^ nbits < 64 then some (unpackWord (w % 2 ^ nbits)) else none

/-- The instruction the decoder reads from a table word, numbered as spec/opcode_table.json numbers it. -/
def decodeTableWord (nbits w : Nat) : Option Instr :=
  match tableWordCells nbits w with
  | none => none
  | some (opcode, operand) =>
    match decode opcode operand with
    | .ok i => some i
    | .error _ => none

end Sys2Proof
end

