-- ==== Sys2Proof/Machine/State.lean ====
section
/-!
DEFINITION. The state of the machine (10_state.md R20, R34), its reset (R36), and the reasons a step can stop. The
program tape stands in the state because `step` takes nothing else; it is configuration, and no step changes it
(10_state.md R21, 20_memory.md R61).
-/

namespace Sys2Proof.Machine

/-- The causes of a run-time fault (60_exceptions.md R177); the codes 1, 2, 3 are `faultCode`. -/
inductive FaultCause where
  /-- cause 1: the fetch of a step at an odd `pc < PROG_LEN` (40_fetch_dispatch.md R91). -/
  | misalignedFetch
  /-- cause 2: `adv`, `bdv` or `cdv` with a negative exponent (41_divide.md R113). -/
  | negativeExponent
  /-- cause 3: a format-`C` opcode with operand 7 (40_fetch_dispatch.md R94). -/
  | reservedCombo
  deriving DecidableEq, Repr

/-- The fault record `(cause, pc, info)` (10_state.md R30). -/
structure FaultRecord where
  /-- why the machine faulted. -/
  cause : FaultCause
  /-- the index of the faulting fetch or instruction. -/
  pc : Nat
  /-- the cause's value: the odd `pc`, the negative exponent, or the instruction word (60_exceptions.md R177). -/
  info : Int
  deriving DecidableEq, Repr

/-- Which host transaction is in progress (70_reset_and_hazards.md R204): the full run, or the single iteration, which
runs the same instructions by the same step and differs in where it stops (45_iteration_mode.md R150). -/
inductive Form where
  | run | iteration
  deriving DecidableEq, Repr

/-- The state: R20's tuple `(A, B, C, pc, out, fault)`, the iteration form's latch (R34), and what the load fixed for
the run (R21): the tape and the transaction. -/
structure State where
  /-- register `A`, `x[0]` (10_state.md R22). -/
  A : RegVal
  /-- register `B`, `x[1]` (10_state.md R22). -/
  B : RegVal
  /-- register `C`, `x[2]` (10_state.md R22). -/
  C : RegVal
  /-- the program counter, an index of cells (10_state.md R25, R26). -/
  pc : Nat
  /-- the output sequence, oldest first (10_state.md R33). -/
  out : List Cell
  /-- the fault record (10_state.md R30). -/
  fault : Option FaultRecord
  /-- the iteration form's latch: the `pc` has left 0 (10_state.md R34). -/
  left0 : Bool
  /-- the program tape; the position in the list is the address (10_state.md R32, 20_memory.md R50). -/
  prog : List Cell
  /-- the transaction in progress (70_reset_and_hazards.md R204). -/
  form : Form
  deriving DecidableEq, Repr

/-- Why the machine has no step. `faulted`, `halted` and `returned` are the three stops of the spec
(10_state.md R35, 45_iteration_mode.md R152); only the first is an error. -/
inductive Fault where
  /-- raised by `step` in a `Faulted` state, with its record: terminal, never final (60_exceptions.md R180). Safe. -/
  | faulted (r : FaultRecord)
  /-- answered by `step` in a `Halted` state: the normal end of a run, no error (40_fetch_dispatch.md R96). Safe. -/
  | halted
  /-- answered by `step` when an iteration has come back to index 0: its normal end (45_iteration_mode.md R152). Safe. -/
  | returned
  /-- raised by `step` when the second cell of an aligned pair is past the end of the tape. Only a tape of odd length
  has such a pair, and no load accepts one (60_exceptions.md R171); `MemRead` is not defined there (00_scope.md R13).
  Safe. -/
  | fetchPastEnd (pc : Nat)
  deriving DecidableEq, Repr

/-- Why an instruction has no meaning. Every instruction of this machine has one, so no step answers a refusal. -/
inductive Refusal where
  /-- raised by an arm of `exec` that has no meaning yet; there is none left. Safe. -/
  | notModelled (mnemonic : String)
  deriving DecidableEq, Repr

/-- What one step or one instruction answers. -/
abbrev Result := Host.Outcome State Fault Refusal

/-- The state after reset for a configuration (10_state.md R36, 45_iteration_mode.md R151). -/
def State.resetWith (initA initB initC : RegVal) (prog : List Cell) (form : Form) : State where
  A := initA
  B := initB
  C := initC
  pc := 0
  out := []
  fault := none
  left0 := false
  prog := prog
  form := form

/-- The machine after reset with nothing loaded: R36's table, with the empty program and the three configured initial
values 0, which the spec leaves to the host (DESIGN CHOICE, notes/assumptions/1.md; unsafe). -/
def State.reset : State := State.resetWith 0 0 0 [] .run

end Sys2Proof.Machine
end

