-- ==== Sys2Proof/Machine/Ops.lean ====
section
/-!
DEFINITION. The named operations every meaning is built from: the three arithmetic operations (00_scope.md R14 to R16),
register access (R12), the tape's one read (R13), the writes of the state, and raising a fault (R18).
-/

namespace Sys2Proof.Machine

/-! ## Arithmetic -/

/-- `tdiv(a, k)`: the quotient of `a` by `2^k`, truncated toward zero (00_scope.md R14, 40_fetch_dispatch.md R100).
The magnitude is shifted, so a huge `k` gives 0 without forming `2^k` (decision D4). -/
def tdiv (a : Int) (k : Nat) : Int := a.sign * ((a.natAbs >>> k : Nat) : Int)

/-- `mod8(v) = v - 8·floor(v/8)` (00_scope.md R15, 40_fetch_dispatch.md R101). -/
def mod8 (v : Int) : Int := v - 8 * v.fdiv 8

/-- `xor(a, b)` over two's complement sign-extended without limit (00_scope.md R16, decision D2). A negative integer is
the complement of a natural number, so the four sign cases reduce to the exclusive-or of naturals. -/
def xorInt : Int → Int → Int
  | .ofNat m, .ofNat n => .ofNat (m ^^^ n)
  | .ofNat m, .negSucc n => .negSucc (m ^^^ n)
  | .negSucc m, .ofNat n => .negSucc (m ^^^ n)
  | .negSucc m, .negSucc n => .ofNat (m ^^^ n)

/-- The low three bits of an integer's two's complement form, as a cell (40_fetch_dispatch.md R101). -/
def cellOf (v : Int) : Cell := BitVec.ofInt 3 v

/-! ## Writes of the state, one field each -/

/-- Write register `A`. -/
def State.setA (s : State) (v : RegVal) : State := { s with A := v }

/-- Write register `B`. -/
def State.setB (s : State) (v : RegVal) : State := { s with B := v }

/-- Write register `C`. -/
def State.setC (s : State) (v : RegVal) : State := { s with C := v }

/-- `pc <- target`. -/
def State.setPc (s : State) (target : Nat) : State := { s with pc := target }

/-- `OutAppend(v)`: append one cell at the end of `out` (00_scope.md R13, 10_state.md R33). -/
def State.outAppend (s : State) (v : Cell) : State := { s with out := s.out ++ [v] }

/-- Write the fault record (10_state.md R30). -/
def State.setFault (s : State) (r : FaultRecord) : State := { s with fault := some r }

/-- Write the iteration latch (10_state.md R34). -/
def State.setLeft0 (s : State) (b : Bool) : State := { s with left0 := b }

/-- `pc <- pc + 2`: the advance of every instruction but a taken `jnz` (10_state.md R25). -/
def State.advance (s : State) : State := s.setPc (s.pc + 2)

/-! ## Registers, tape, faults -/

/-- `x[i]`: `x[0] = A`, `x[1] = B`, `x[2] = C` (00_scope.md R12). -/
def readReg (s : State) : Fin 3 → RegVal
  | 0 => s.A
  | 1 => s.B
  | 2 => s.C

/-- `x[i] <- v` (00_scope.md R12). -/
def writeReg (s : State) : Fin 3 → RegVal → State
  | 0, v => s.setA v
  | 1, v => s.setB v
  | 2, v => s.setC v

/-- `MemRead(addr, n)`: `n` consecutive cells of the tape, defined only when `addr + n ≤ PROG_LEN` (00_scope.md R13). -/
def memRead (prog : List Cell) (addr n : Nat) : Option (List Cell) :=
  if addr + n ≤ prog.length then some ((prog.drop addr).take n) else none

/-- The form the tape has in every loaded machine (30_encoding.md R83). The only operation on the tape during a run is
`memRead`; no instruction writes it (00_scope.md R13). -/
abbrev Memory.wf (prog : List Cell) : Prop := tapeWellFormed prog = true

/-- The numeric code of a fault cause (60_exceptions.md R177, decision D23). -/
def faultCode : FaultCause → Nat
  | .misalignedFetch => 1
  | .negativeExponent => 2
  | .reservedCombo => 3

/-- `raise <Fault>(info)`: the one way a fault is taken (00_scope.md R18, 60_exceptions.md R180). It records the cause,
the `pc` of the faulting step and the cause's value in `fault`, and writes nothing else. There is no handler, no vector
and no return: the next step finds the record and stops. -/
def raise (cause : FaultCause) (info : Int) (s : State) : Result :=
  .next (s.setFault ⟨cause, s.pc, info⟩)

end Sys2Proof.Machine
end

