-- ==== Sys2Proof/Machine/Operands.lean ====
section
/-!
DEFINITION. The two operand interpretations, literal and combo (30_encoding.md R73 to R76). Both read the state before
the instruction writes anything (R74).
-/

namespace Sys2Proof.Machine

/-- `lit(o) = o` (30_encoding.md R75). -/
def lit (o : Cell) : Int := o.toInt3

/-- `combo(o)` (30_encoding.md R76): 0 to 3 are themselves, 4, 5, 6 are `A`, `B`, `C`, and 7 has no value. -/
def combo (s : State) (o : Cell) : Option Int :=
  if o.toNat ≤ 3 then some o.toInt3
  else if o = 4#3 then some (readReg s 0)
  else if o = 5#3 then some (readReg s 1)
  else if o = 6#3 then some (readReg s 2)
  else none

/-- Resolve the combo operand of instruction `op c` and go on with its value; the reserved operand raises
`ReservedCombo` with the instruction word (30_encoding.md R76, 40_fetch_dispatch.md R94). -/
def withCombo (op : Opcode) (c : Cell) (s : State) (use : Int → Result) : Result :=
  match combo s c with
  | none => raise .reservedCombo (packWord op.toCell c) s
  | some v => use v

/-- Resolve the combo operand of a division as an exponent; a negative one raises `NegativeExponent` with its value
(41_divide.md R113, decision D3). -/
def withExponent (op : Opcode) (c : Cell) (s : State) (use : Nat → Result) : Result :=
  withCombo op c s fun k => if k < 0 then raise .negativeExponent k s else use k.toNat

end Sys2Proof.Machine
end

