-- ==== Sys2Proof/Machine/Bitwise.lean ====
section
/-!
DEFINITION. The bitwise family `bxl`, `bst`, `bxc` (42_bitwise.md): all three write `B` and nothing else but the `pc`.
-/

namespace Sys2Proof.Machine

/-- `bxl l`: `B <- xor(B, lit(l))` (42_bitwise.md R120). -/
def execBxl (l : Cell) (s : State) : Result := .next (s.setB (xorInt s.B (lit l))).advance

/-- `bst c`: `B <- mod8(combo(c))` (42_bitwise.md R121). -/
def execBst (c : Cell) (s : State) : Result :=
  withCombo .bst c s fun v => .next (s.setB (mod8 v)).advance

/-- `bxc u`: `B <- xor(B, C)`; the operand cell is fetched and ignored (42_bitwise.md R122). -/
def execBxc (_u : Cell) (s : State) : Result := .next (s.setB (xorInt s.B s.C)).advance

end Sys2Proof.Machine
end

