-- ==== Sys2Proof/Machine/Flags.lean ====
section
/-!
DEFINITION. The machine has no status flag, no condition code and no predicate register, and no instruction has a side
effect on any (10_state.md R28). Its one condition is the test `A ≠ 0`, made on the register itself.
-/

namespace Sys2Proof.Machine

/-- The only condition of the machine: `A ≠ 0` (10_state.md R28, 43_control.md R130). -/
def condANonzero (s : State) : Bool := s.A != 0

end Sys2Proof.Machine
end

