-- ==== Sys2Proof/Machine/Control.lean ====
section
/-!
DEFINITION. Control transfer: `jnz`, the only jump (43_control.md).
-/

namespace Sys2Proof.Machine

/-- `jnz l`: `pc <- lit(l)` when `A ≠ 0`, an absolute cell index, else `pc <- pc + 2` (43_control.md R130, R131). -/
def execJnz (l : Cell) (s : State) : Result :=
  if condANonzero s then .next (s.setPc (lit l).toNat) else .next s.advance

end Sys2Proof.Machine
end

