-- ==== Sys2Proof/Machine/Divide.lean ====
section
/-!
DEFINITION. The division family `adv`, `bdv`, `cdv` (41_divide.md): one value, `tdiv(A, combo(c))`, into three
destinations.
-/

namespace Sys2Proof.Machine

/-- `x[dst] <- tdiv(A, k); pc <- pc + 2` with `k` the exponent the combo operand names (41_divide.md R110 to R113). -/
def divideInto (op : Opcode) (dst : Fin 3) (c : Cell) (s : State) : Result :=
  withExponent op c s fun k => .next (writeReg s dst (tdiv s.A k)).advance

/-- `adv c` (41_divide.md R110). -/
def execAdv (c : Cell) (s : State) : Result := divideInto .adv 0 c s

/-- `bdv c` (41_divide.md R111). -/
def execBdv (c : Cell) (s : State) : Result := divideInto .bdv 1 c s

/-- `cdv c` (41_divide.md R112). -/
def execCdv (c : Cell) (s : State) : Result := divideInto .cdv 2 c s

end Sys2Proof.Machine
end

