-- ==== Sys2Proof/Machine/Output.lean ====
section
/-!
DEFINITION. Output: `out`, the only instruction with an effect outside the registers and the `pc` (44_output.md).
-/

namespace Sys2Proof.Machine

/-- `out c`: `OutAppend(mod8(combo(c)))` (44_output.md R140). -/
def execOut (c : Cell) (s : State) : Result :=
  withCombo .out c s fun v => .next (s.outAppend (cellOf (mod8 v))).advance

end Sys2Proof.Machine
end

