-- ==== Sys2Proof/Machine/Dispatch.lean ====
section
/-!
DEFINITION. The dispatch: one arm per constructor of `Instr` (40_fetch_dispatch.md R93).
-/

namespace Sys2Proof.Machine

/-- Execute one instruction: its whole effect at once, from the state before it (40_fetch_dispatch.md R95). -/
def exec (i : Instr) (s : State) : Host.Outcome State Fault Refusal :=
  match i with
  | .adv c => Sys2Proof.Machine.execAdv c s
  | .bxl l => Sys2Proof.Machine.execBxl l s
  | .bst c => Sys2Proof.Machine.execBst c s
  | .jnz l => Sys2Proof.Machine.execJnz l s
  | .bxc u => Sys2Proof.Machine.execBxc u s
  | .out c => Sys2Proof.Machine.execOut c s
  | .bdv c => Sys2Proof.Machine.execBdv c s
  | .cdv c => Sys2Proof.Machine.execCdv c s

end Sys2Proof.Machine
end

