-- ==== Sys2Proof/Machine/Fetch.lean ====
section
/-!
DEFINITION. Fetching and running one instruction, the tests that come before a fetch, the iteration latch, and placing a
pair of cells where the next fetch reads it (40_fetch_dispatch.md R90 to R96, R106; 45_iteration_mode.md R152).
-/

namespace Sys2Proof.Machine

/-- The tests before every step, in the order of 40_fetch_dispatch.md R106 and 45_iteration_mode.md R152: a fault
already recorded, then the end of the tape, then (in the iteration form) the return to index 0. -/
def stopReason (s : State) : Option Fault :=
  match s.fault with
  | some r => some (.faulted r)
  | none =>
    if s.prog.length ≤ s.pc then some .halted
    else if s.form = .iteration ∧ s.left0 = true ∧ s.pc = 0 then some .returned
    else none

/-- Run a fetched pair: a reserved word raises `ReservedCombo`, every other pair executes
(40_fetch_dispatch.md R93, R94). -/
def runPair (opcode operand : Cell) (s : State) : Result :=
  match decode opcode operand with
  | .error (.reservedCombo w) => raise .reservedCombo w s
  | .ok i => exec i s

/-- One step of a `Running` state (40_fetch_dispatch.md R91, R92, R95): an odd `pc` raises `MisalignedFetch`, else the
pair at `pc` is read and run. A pair that is not whole on the tape stops (only a tape of odd length has one). -/
def fetchAndRun (s : State) : Result :=
  if s.pc % 2 = 1 then raise .misalignedFetch s.pc s
  else
    match memRead s.prog s.pc 2 with
    | some [opcode, operand] => runPair opcode operand s
    | _ => .fault (.fetchPastEnd s.pc)

/-- The iteration latch after a step: set once the step ended without a fault at `pc ≠ 0` (45_iteration_mode.md R152).
The full run does not use it (10_state.md R34). -/
def latchLeft0 (t : State) : State :=
  if t.form = .iteration ∧ t.fault = none ∧ t.pc ≠ 0 then t.setLeft0 true else t

/-- Apply `latchLeft0` to the next state of a step. -/
def observeLeft0 : Result → Result
  | .next t => .next (latchLeft0 t)
  | .fault r => .fault r
  | .refused r => .refused r

/-- A tape with the pair `(opcode, operand)` at index `at0`: cells before it kept (and padded with 0 where the tape is
shorter), cells after it kept. -/
def placePair (prog : List Cell) (at0 : Nat) (opcode operand : Cell) : List Cell :=
  prog.take at0 ++ List.replicate (at0 - prog.length) 0#3 ++ [opcode, operand] ++ prog.drop (at0 + 2)

/-- The state a load leaves that puts the pair `(opcode, operand)` first: the pair on the tape at an even `pc`, nothing
pending that would keep the machine from fetching it. -/
def loadPair (s : State) (opcode operand : Cell) : State :=
  { s with
    pc := s.pc - s.pc % 2
    fault := none
    left0 := s.left0 && decide (s.pc - s.pc % 2 ≠ 0)
    prog := placePair s.prog (s.pc - s.pc % 2) opcode operand }

end Sys2Proof.Machine
end

