-- ==== Sys2Proof/Machine/Step.lean ====
section
/-!
DEFINITION. One step of the machine (40_fetch_dispatch.md R90, R95, R106; 45_iteration_mode.md R152), and placing a
table word where it is fetched next.
-/

namespace Sys2Proof.Machine

/-- One step. A machine that is faulted, halted or returned has none and answers why; a running one fetches and
executes one instruction. -/
def step (s : State) : Host.Outcome State Fault Refusal :=
  match stopReason s with
  | some f => .fault f
  | none => observeLeft0 (fetchAndRun s)

/-- The machine with the table word `w` of `nbits` bits loaded as its next instruction: it stands for the load of a
program by the host (70_reset_and_hazards.md R200; notes/assumptions/2.md). -/
def State.withFetchWord (s : State) (nbits w : Nat) : State :=
  loadPair s (unpackWord (w % 2 ^ nbits)).1 (unpackWord (w % 2 ^ nbits)).2

end Sys2Proof.Machine
end

