-- ==== Sys2Proof/Machine/Listing.lean ====
section
/-!
DEFINITION. The textual form of instructions (30_encoding.md R84 to R86; the operand spelling is the spec's own choice,
decision D9). No behaviour of the machine depends on it.
-/

namespace Sys2Proof.Machine

/-- The mnemonics, lower case (30_encoding.md R84). -/
def mnemonic : Opcode → String
  | .adv => "adv"
  | .bxl => "bxl"
  | .bst => "bst"
  | .jnz => "jnz"
  | .bxc => "bxc"
  | .out => "out"
  | .bdv => "bdv"
  | .cdv => "cdv"

/-- All eight operations, in the opcode's order. -/
def allOpcodes : List Opcode := [.adv, .bxl, .bst, .jnz, .bxc, .out, .bdv, .cdv]

/-- All eight cells, in order. -/
def allCells : List Cell := [0#3, 1#3, 2#3, 3#3, 4#3, 5#3, 6#3, 7#3]

/-- A literal operand is written as its decimal digit (30_encoding.md R85). -/
def literalText (o : Cell) : String := o.toNat.repr

/-- A combo operand is written as its digit or its register's letter; 7 has no spelling and is printed as reserved
(30_encoding.md R85). -/
def comboText (o : Cell) : String :=
  if o.toNat ≤ 3 then literalText o
  else if o = 4#3 then "A"
  else if o = 5#3 then "B"
  else if o = 6#3 then "C"
  else "<reserved 7>"

/-- The operand of an operation as a listing shows it (30_encoding.md R85). -/
def operandText (op : Opcode) (o : Cell) : String :=
  match op.format with
  | .combo => comboText o
  | .literal => literalText o
  | .unused => literalText o

/-- Read a tape at its even indices and print each pair, reserved words included (30_encoding.md R85). -/
def disassemble : List Cell → List String
  | opcode :: operand :: rest =>
    (mnemonic (Opcode.ofCell opcode) ++ " " ++ operandText (Opcode.ofCell opcode) operand) :: disassemble rest
  | _ => []

/-- Assemble one line given as its mnemonic and its operand text, if it has one; `bxc` alone stands for `bxc 0`, and a
reserved operand has no spelling (30_encoding.md R85, R86). -/
def assembleLine (name : String) (operand : Option String) : Option (Cell × Cell) :=
  match allOpcodes.find? fun op => mnemonic op == name with
  | none => none
  | some op =>
    match operand with
    | none => if op = .bxc then some (op.toCell, 0#3) else none
    | some text =>
      match allCells.find? fun o => operandText op o == text && !isReservedPair op.toCell o with
      | none => none
      | some o => some (op.toCell, o)

end Sys2Proof.Machine
end

