-- ==== Sys2Proof/Machine/Load.lean ====
section
/-!
DEFINITION. The load of a run: the load-time check in the order of 60_exceptions.md R183, then reset
(70_reset_and_hazards.md R200; 45_iteration_mode.md R151).
-/

namespace Sys2Proof.Machine

/-- The numeric code of a configuration error (60_exceptions.md R171 to R174, decision D23). -/
def configErrorCode : ConfigError → Nat
  | .oddLength _ => 1
  | .cellOutOfRange _ _ => 2
  | .reservedComboOperand _ _ => 3
  | .registerWidthExceeded _ _ => 4

/-- The first element outside 0 to 7 and its index, counting from `i` (60_exceptions.md R172). -/
def firstOutOfRange : List Int → Nat → Option (Nat × Int)
  | [], _ => none
  | v :: rest, i => if cellInRange v then firstOutOfRange rest (i + 1) else some (i, v)

/-- The first aligned pair that is a reserved word, its index and the word, counting from `i`
(60_exceptions.md R173). -/
def firstReservedPair : List Cell → Nat → Option (Nat × Nat)
  | opcode :: operand :: rest, i =>
    if isReservedPair opcode operand then some (i, packWord opcode operand) else firstReservedPair rest (i + 2)
  | _, _ => none

/-- The lowest register whose initial value does not fit (60_exceptions.md R174). -/
def firstTooWide (x : XLen) (cfg : HostConfig) : Option (Fin 3 × Int) :=
  if !x.fits cfg.initA then some (0, cfg.initA)
  else if !x.fits cfg.initB then some (1, cfg.initB)
  else if !x.fits cfg.initC then some (2, cfg.initC)
  else none

/-- The host's tape as the machine's cells (30_encoding.md R80). -/
def tapeOf (prog : List Int) : List Cell := prog.map cellOf

/-- The load-time check, first match wins (60_exceptions.md R183). -/
def configError (x : XLen) (cfg : HostConfig) : Option ConfigError :=
  if cfg.prog.length % 2 = 1 then some (.oddLength cfg.prog.length)
  else match firstOutOfRange cfg.prog 0 with
  | some (i, v) => some (.cellOutOfRange i v)
  | none => match firstReservedPair (tapeOf cfg.prog) 0 with
    | some (i, w) => some (.reservedComboOperand i w)
    | none => match firstTooWide x cfg with
      | some (r, v) => some (.registerWidthExceeded r v)
      | none => none

/-- Load and reset: refuse the configuration, or answer the state after reset (70_reset_and_hazards.md R200). The same
load starts a full run and an iteration (45_iteration_mode.md R151). -/
def load (x : XLen) (form : Form) (cfg : HostConfig) : Except ConfigError State :=
  match configError x cfg with
  | some e => .error e
  | none => .ok (State.resetWith cfg.initA cfg.initB cfg.initC (tapeOf cfg.prog) form)

end Sys2Proof.Machine
end

