-- ==== Sys2Proof/Machine/HostInterface.lean ====
section
/-!
DEFINITION. The two host transactions, `Run` and `RunIteration` (70_reset_and_hazards.md R204). The machine has no step
limit (40_fetch_dispatch.md R98, decision D20): the `fuel` here is the executor's own, and running out of it is neither
`Halted` nor `Faulted`.
-/

namespace Sys2Proof.Machine

/-- How an execution under fuel ended. -/
inductive RunEnd where
  /-- the machine has no step, for reason `f`, and stands in state `s`. -/
  | stopped (f : Fault) (s : State)
  /-- an instruction had no meaning in state `s`; no instruction of this machine ends so. -/
  | refused (r : Refusal) (s : State)
  /-- the executor's fuel ran out in state `s`; says nothing of the run. -/
  | outOfFuel (s : State)
  deriving DecidableEq, Repr

/-- Step until the machine stops, at most `fuel` steps (40_fetch_dispatch.md R97; 45_iteration_mode.md R152). -/
def runUntilStop : Nat → State → RunEnd
  | 0, s =>
    match stopReason s with
    | some f => .stopped f s
    | none => .outOfFuel s
  | n + 1, s =>
    match stopReason s with
    | some f => .stopped f s
    | none =>
      match step s with
      | .next t => runUntilStop n t
      | .fault f => .stopped f s
      | .refused r => .refused r s

/-- What the host gets back from `Run` (70_reset_and_hazards.md R204): a faulted run has no result
(60_exceptions.md R180), and an unfinished one says nothing. -/
inductive RunAnswer where
  | configError (e : ConfigError)
  | output (out : List Cell)
  | faulted (r : FaultRecord)
  | noAnswer
  deriving DecidableEq, Repr

/-- The host transaction `Run` (70_reset_and_hazards.md R204, 40_fetch_dispatch.md R97). -/
def hostRun (x : XLen) (fuel : Nat) (cfg : HostConfig) : RunAnswer :=
  match load x .run cfg with
  | .error e => .configError e
  | .ok s =>
    match runUntilStop fuel s with
    | .stopped .halted t => .output t.out
    | .stopped (.faulted r) _ => .faulted r
    | _ => .noAnswer

/-- How an iteration ended (45_iteration_mode.md R153). -/
inductive IterationEnd where
  | returned | halted | faulted
  deriving DecidableEq, Repr

/-- The triple `(end, outs, next_a)` of 45_iteration_mode.md R153. -/
structure IterationResult where
  /-- `end`. -/
  ending : IterationEnd
  /-- every cell appended during the iteration, in order. -/
  outs : List Cell
  /-- the value of `A` at the stop. -/
  nextA : RegVal
  deriving DecidableEq, Repr

/-- The `digit` of an iteration: defined exactly when it did not fault and appended one cell
(45_iteration_mode.md R153, decision D12). -/
def iterationDigit (r : IterationResult) : Option Cell :=
  match r.ending, r.outs with
  | .faulted, _ => none
  | _, [d] => some d
  | _, _ => none

/-- What the host gets back from `RunIteration` (70_reset_and_hazards.md R204). -/
inductive IterationAnswer where
  | configError (e : ConfigError)
  | result (r : IterationResult)
  | noAnswer
  deriving DecidableEq, Repr

/-- The host transaction `RunIteration` (45_iteration_mode.md R151 to R153). -/
def hostRunIteration (x : XLen) (fuel : Nat) (cfg : HostConfig) : IterationAnswer :=
  match load x .iteration cfg with
  | .error e => .configError e
  | .ok s =>
    match runUntilStop fuel s with
    | .stopped .returned t => .result ⟨.returned, t.out, t.A⟩
    | .stopped .halted t => .result ⟨.halted, t.out, t.A⟩
    | .stopped (.faulted _) t => .result ⟨.faulted, t.out, t.A⟩
    | _ => .noAnswer

end Sys2Proof.Machine
end

