-- ==== Sys2Proof/Machine/Solver.lean ====
section
/-!
DEFINITION. The Reverse Solver, the host software that drives the iteration form (45_iteration_mode.md section 3). It is
outside the hardware (00_scope.md R4): nothing of the machine depends on it. It is written down so that every rule of
the spec has its place. Its `fuel` bounds each call of the core and is the executor's own.
-/

namespace Sys2Proof.Machine

/-- What the solver answers (45_iteration_mode.md R164). -/
inductive SolverAnswer where
  /-- the least register value found, validated by a full run (R163). -/
  | found (a : Int)
  /-- the frontier became empty: no quine; an expected outcome, not an error. -/
  | noSolution
  /-- the core refused the configuration. -/
  | configError (e : ConfigError)
  /-- a candidate exceeds a finite `XLEN`: fatal, never wrapped (R160). -/
  | internalLimit (candidate : Int)
  /-- the least value found does not reproduce the tape (R163). -/
  | validationFailed (a : Int)
  /-- a call of the core used up the executor's fuel. -/
  | noAnswer
  deriving DecidableEq, Repr

/-- The eight extensions `v*8 + e` of a frontier value (45_iteration_mode.md R161 step 2a). -/
def candidatesOf (v : Int) : List Int := (List.range 8).map fun (e : Nat) => v * 8 + (e : Int)

/-- Whether an iteration's result retains its candidate: the digit is the target and the next `A` is `v`
(45_iteration_mode.md R161 step 2c). -/
def retains (target : Cell) (v : Int) (r : IterationResult) : Bool :=
  iterationDigit r == some target && r.nextA == v

/-- Try one candidate by one forward iteration (45_iteration_mode.md R161 step 2b, R160). -/
def tryCandidate (x : XLen) (fuel : Nat) (initB initC : Int) (prog : List Int) (target : Cell) (v candidate : Int) :
    Except SolverAnswer Bool :=
  if x.fits candidate then
    match hostRunIteration x fuel ⟨candidate, initB, initC, prog⟩ with
    | .configError e => .error (.configError e)
    | .noAnswer => .error .noAnswer
    | .result r => .ok (retains target v r)
  else .error (.internalLimit candidate)

/-- Retain those of a list of candidates that `try?` accepts, in order, stopping at the first answer that ends the
search. -/
def retainAll (try? : Int → Except SolverAnswer Bool) : List Int → Except SolverAnswer (List Int)
  | [] => .ok []
  | c :: rest =>
    match try? c with
    | .error a => .error a
    | .ok keep =>
      match retainAll try? rest with
      | .error a => .error a
      | .ok kept => .ok (if keep then c :: kept else kept)

/-- The next frontier: for every value all eight extensions, those retained (45_iteration_mode.md R161 step 2). -/
def nextFrontier (x : XLen) (fuel : Nat) (initB initC : Int) (prog : List Int) (target : Cell) :
    List Int → Except SolverAnswer (List Int)
  | [] => .ok []
  | v :: rest =>
    match retainAll (tryCandidate x fuel initB initC prog target v) (candidatesOf v) with
    | .error a => .error a
    | .ok here =>
      match nextFrontier x fuel initB initC prog target rest with
      | .error a => .error a
      | .ok later => .ok (here ++ later.filter fun w => !here.contains w)

/-- The backward search over the digits still required, the next one first (45_iteration_mode.md R161). -/
def searchBack (x : XLen) (fuel : Nat) (initB initC : Int) (prog : List Int) :
    List Cell → List Int → Except SolverAnswer (List Int)
  | [], frontier => .ok frontier
  | target :: rest, frontier =>
    match nextFrontier x fuel initB initC prog target frontier with
    | .error a => .error a
    | .ok [] => .error .noSolution
    | .ok kept => searchBack x fuel initB initC prog rest kept

/-- The least element of a frontier, taken numerically (45_iteration_mode.md R161). -/
def leastOf : List Int → Option Int
  | [] => none
  | v :: rest =>
    match leastOf rest with
    | none => some v
    | some w => some (if w < v then w else v)

/-- `find_minimal_a(init_b, init_c, program)` (45_iteration_mode.md R160 to R164): the load-time check, the backward
search from `{0}` over the tape read last cell first, the minimum, and its validation by a full run (R163). -/
def findMinimalA (x : XLen) (fuel : Nat) (initB initC : Int) (prog : List Int) : SolverAnswer :=
  match configError x ⟨0, initB, initC, prog⟩ with
  | some e => .configError e
  | none =>
    match searchBack x fuel initB initC prog (tapeOf prog).reverse [0] with
    | .error a => a
    | .ok frontier =>
      match leastOf frontier with
      | none => .noSolution
      | some a =>
        match hostRun x fuel ⟨a, initB, initC, prog⟩ with
        | .output out => if out = tapeOf prog then .found a else .validationFailed a
        | .noAnswer => .noAnswer
        | _ => .validationFailed a

end Sys2Proof.Machine
end

