-- ==== Sys2Proof/Safety.lean ====
section
/-!
DEFINITION. What counts as a safe state and a safe run, in the terms the statements use: the three predicates that
classify every state (10_state.md R35), the invariant of the machine, the ranges the arithmetic laws keep, and the
spec's own pseudocode of a step (40_fetch_dispatch.md R95) in plain integer arithmetic, for the refinement statement.
-/

namespace Sys2Proof.Machine

/-- `Faulted` (10_state.md R35). -/
abbrev State.Faulted (s : State) : Prop := s.fault ≠ none

/-- `Halted`: the normal end of a run (10_state.md R35). -/
abbrev State.Halted (s : State) : Prop := s.fault = none ∧ s.prog.length ≤ s.pc

/-- `Running` (10_state.md R35). -/
abbrev State.Running (s : State) : Prop := s.fault = none ∧ s.pc < s.prog.length

/-- The iteration form has come back to index 0 (45_iteration_mode.md R152, third test). -/
abbrev State.Returned (s : State) : Prop := s.form = .iteration ∧ s.left0 = true ∧ s.pc = 0

/-- All three registers are in the range of `XLEN` (10_state.md R22, 40_fetch_dispatch.md R104). -/
abbrev RegsFit (x : XLen) (s : State) : Prop :=
  x.fits s.A = true ∧ x.fits s.B = true ∧ x.fits s.C = true

/-- All three registers are non-negative (40_fetch_dispatch.md R107). -/
abbrev RegsNonNeg (s : State) : Prop := 0 ≤ s.A ∧ 0 ≤ s.B ∧ 0 ≤ s.C

/-- What a fault record says is true of the state that holds it (60_exceptions.md R177, R178): the recorded `pc` is the
machine's, the tape has a cell there, and the cause's condition holds. A reserved word is on no well-formed tape, so its
cause does not occur (30_encoding.md R79). -/
def recordFits (s : State) (r : FaultRecord) : Prop :=
  r.pc = s.pc ∧ s.pc < s.prog.length ∧
    match r.cause with
    | .misalignedFetch => s.pc % 2 = 1 ∧ r.info = s.pc
    | .negativeExponent => s.pc % 2 = 0 ∧ r.info < 0 ∧ (r.info = s.A ∨ r.info = s.B ∨ r.info = s.C)
    | .reservedCombo => False

/-- The invariant of a loaded machine: its tape is well formed (30_encoding.md R83), its `pc` within R26's bound, its
fault record true of it, and its latch set only in an iteration (10_state.md R34). -/
structure State.Inv (s : State) : Prop where
  tape : Memory.wf s.prog
  bound : s.pc ≤ max s.prog.length 7
  record : ∀ r, s.fault = some r → recordFits s r
  latch : s.left0 = true → s.form = .iteration

/-! ## The spec's pseudocode of a step (40_fetch_dispatch.md R95), transcribed on numbers -/

/-- The value of the cell at an index of the tape. -/
def cellNat (prog : List Cell) (a : Nat) : Nat := (prog.getD a 0#3).toNat

/-- `combo(o)` for `o ≤ 6` (30_encoding.md R76). -/
def comboNat (s : State) (o : Nat) : Int :=
  if o ≤ 3 then (o : Int) else if o = 4 then s.A else if o = 5 then s.B else s.C

/-- One step of a `Running` state as R95's pseudocode writes it: truncating division by a power of two, remainder
modulo 8, and every arm's commit in full. -/
def pseudoStep (s : State) : State :=
  let opcode := cellNat s.prog s.pc
  let operand := cellNat s.prog (s.pc + 1)
  let k := comboNat s operand
  if s.pc % 2 = 1 then { s with fault := some ⟨.misalignedFetch, s.pc, s.pc⟩ }
  else if opcode ∈ [0, 2, 5, 6, 7] ∧ operand = 7 then
    { s with fault := some ⟨.reservedCombo, s.pc, 8 * opcode + 7⟩ }
  else
    match opcode with
    | 0 =>
      if k < 0 then { s with fault := some ⟨.negativeExponent, s.pc, k⟩ }
      else { s with A := Int.tdiv s.A (2 ^ k.toNat), pc := s.pc + 2 }
    | 1 => { s with B := xorInt s.B operand, pc := s.pc + 2 }
    | 2 => { s with B := k % 8, pc := s.pc + 2 }
    | 3 => if s.A ≠ 0 then { s with pc := operand } else { s with pc := s.pc + 2 }
    | 4 => { s with B := xorInt s.B s.C, pc := s.pc + 2 }
    | 5 => { s with out := s.out ++ [BitVec.ofNat 3 (k % 8).toNat], pc := s.pc + 2 }
    | 6 =>
      if k < 0 then { s with fault := some ⟨.negativeExponent, s.pc, k⟩ }
      else { s with B := Int.tdiv s.A (2 ^ k.toNat), pc := s.pc + 2 }
    | _ =>
      if k < 0 then { s with fault := some ⟨.negativeExponent, s.pc, k⟩ }
      else { s with C := Int.tdiv s.A (2 ^ k.toNat), pc := s.pc + 2 }

/-- Bit `i` of an integer's two's complement form, sign-extended without limit: the parity of `floor(v / 2^i)`. -/
def bitAt (v : Int) (i : Nat) : Bool := v.fdiv (2 ^ i) % 2 == 1

/-- The number of aligned pairs of a tape whose opcode cell is 5, `out` (40_fetch_dispatch.md R105). -/
def outPairs : List Cell → Nat
  | opcode :: _ :: rest => (if opcode = 5#3 then 1 else 0) + outPairs rest
  | _ => 0

/-- No aligned pair of the tape is a `jnz` (40_fetch_dispatch.md R105). -/
def noJnzPair : List Cell → Bool
  | opcode :: _ :: rest => opcode != 3#3 && noJnzPair rest
  | _ => true

end Sys2Proof.Machine
end

