-- ==== Sys2Proof/Certificates/Slice0/Obligations.lean ====
section
/-!
DEFINITION. The statements for the provers. Each docstring names the rule of spec/ it formalises and, where a clause
rests on a decision D<n> of the spec (92_eei_decisions.md) or on a choice of this model, says so.
-/

open Sys2Proof Sys2Proof.Machine

/-! ## Encoding -/

/-- Decoding and encoding agree in both directions: a pair of cells decodes to `i` exactly when `i` is well formed and
its encoding is that pair (30_encoding.md R70, R72, R77). -/
def Obligations.DecodeEncodeInverse : Prop :=
  ∀ (i : Instr) (opcode operand : Cell),
    decode opcode operand = .ok i ↔ i.wellFormed = true ∧ encode i = (opcode, operand)

/-- Exactly the format-`C` opcodes with operand 7 are refused, by name and with their word; the other three opcodes
take operand 7 (30_encoding.md R78, R79; the refusal at decoding rests on decision D6). -/
def Obligations.ReservedWordsRefused : Prop :=
  (∀ (opcode operand : Cell) (w : Nat),
    decode opcode operand = .error (.reservedCombo w) ↔
      (opcode = 0#3 ∨ opcode = 2#3 ∨ opcode = 5#3 ∨ opcode = 6#3 ∨ opcode = 7#3) ∧ operand = 7#3 ∧
        w = 8 * opcode.toNat + 7) ∧
  decode 1#3 7#3 = .ok (.bxl 7#3) ∧ decode 3#3 7#3 = .ok (.jnz 7#3) ∧ decode 4#3 7#3 = .ok (.bxc 7#3)

/-- One word of every opcode, written out from the patterns of 30_encoding.md R77, decodes to its instruction. -/
def Obligations.FamilyWordsDecode : Prop :=
  decodeTableWord 8 0b000001 = some (.adv 1#3) ∧ decodeTableWord 8 0b001111 = some (.bxl 7#3) ∧
  decodeTableWord 8 0b010110 = some (.bst 6#3) ∧ decodeTableWord 8 0b011000 = some (.jnz 0#3) ∧
  decodeTableWord 8 0b100111 = some (.bxc 7#3) ∧ decodeTableWord 8 0b101100 = some (.out 4#3) ∧
  decodeTableWord 8 0b110101 = some (.bdv 5#3) ∧ decodeTableWord 8 0b111110 = some (.cdv 6#3) ∧
  decodeTableWord 8 0b111111 = none

/-- Assembling the listing of a well-formed instruction gives its cells back; the listing of a reserved word does not
assemble; and the reserved operand has no spelling: no mnemonic and operand text whatever assemble to a reserved word
(30_encoding.md R85; the operand spelling is the spec's own choice, decision D9). -/
def Obligations.ListingRoundTrip : Prop :=
  (∀ i : Instr, i.wellFormed = true →
    assembleLine (mnemonic i.opcode) (some (operandText i.opcode i.operand)) = some (encode i)) ∧
  (∀ i : Instr, i.wellFormed = false →
    assembleLine (mnemonic i.opcode) (some (operandText i.opcode i.operand)) = none) ∧
  (∀ (i : Instr) (name : String) (operand : Option String), i.wellFormed = false →
    assembleLine name operand ≠ some (encode i))

/-! ## The step -/

/-- A step runs the decoded instruction: when the machine is running (and not back at index 0 in an iteration), the pair
at an even `pc` decodes to `i`, then `step` is `exec i`, with the iteration latch set when the next state has no fault
and `pc ≠ 0` (40_fetch_dispatch.md R92, R93, R95; the latch is 45_iteration_mode.md R152, decision D11). -/
def Obligations.StepRunsDecodedInstruction : Prop :=
  ∀ (s : State) (opcode operand : Cell) (i : Instr),
    s.Running → ¬ s.Returned → s.pc % 2 = 0 →
    s.prog[s.pc]? = some opcode → s.prog[s.pc + 1]? = some operand → decode opcode operand = .ok i →
    step s = match exec i s with
      | .next t => .next { t with left0 := t.left0 || decide (t.form = .iteration ∧ t.fault = none ∧ t.pc ≠ 0) }
      | .fault f => .fault f
      | .refused r => .refused r

/-- On a tape of even length the step is total on running states and the stops are exactly the spec's three: `faulted`
with the recorded fault, `halted` at or past the end, `returned` when an iteration is back at index 0; no step is
refused (40_fetch_dispatch.md R90, R106; the order and the third stop rest on decisions D22 and D11). -/
def Obligations.StopsExactlyWhenNotRunning : Prop :=
  ∀ s : State, s.prog.length % 2 = 0 →
    ((∃ t, step s = .next t) ↔ s.Running ∧ ¬ s.Returned) ∧
    (∀ r, step s = .fault (.faulted r) ↔ s.fault = some r) ∧
    (step s = .fault .halted ↔ s.Halted) ∧
    (step s = .fault .returned ↔ s.Running ∧ s.Returned) ∧
    (∀ a, step s ≠ .fault (.fetchPastEnd a)) ∧ (∀ r, step s ≠ .refused r)

/-- The step refines the spec's pseudocode: on every running state over a tape of even length the next state is that of
R95's pseudocode, with the iteration latch observed (40_fetch_dispatch.md R95; its fault arms rest on decisions D3, D5
and D6, the latch on D11). -/
def Obligations.StepIsPseudocode : Prop :=
  ∀ s : State, s.prog.length % 2 = 0 → s.Running → ¬ s.Returned →
    step s = .next { pseudoStep s with
      left0 := s.left0 ||
        decide (s.form = .iteration ∧ (pseudoStep s).fault = none ∧ (pseudoStep s).pc ≠ 0) }

/-- A faulted machine has no step, whatever else its state holds (60_exceptions.md R180, R181, decision D7; the outcome
that names the record is this model's, notes/assumptions/3.md). -/
def Obligations.FaultedHasNoStep : Prop :=
  ∀ (s : State) (r : FaultRecord), s.fault = some r → step s = .fault (.faulted r)

/-- The halt test comes before the alignment test: at or past the end of the tape the machine is halted, at an even and
at an odd `pc`, and an empty program is halted at reset (40_fetch_dispatch.md R91, R96; decision D5 for the odd `pc`; the
outcome `halted` is this model's, notes/assumptions/4.md). -/
def Obligations.HaltTestBeforeAlignment : Prop :=
  (∀ s : State, s.fault = none → s.prog.length ≤ s.pc → step s = .fault .halted) ∧
  (∀ (a b c : Int) (f : Form), step (State.resetWith a b c [] f) = .fault .halted)

/-- An odd `pc` on the tape raises `MisalignedFetch`: cause 1, `pc` and `info` the odd `pc`, nothing else written
(40_fetch_dispatch.md R91, decision D5). -/
def Obligations.MisalignedFetchTaken : Prop :=
  faultCode .misalignedFetch = 1 ∧
  ∀ s : State, s.Running → s.pc % 2 = 1 →
    step s = .next { s with fault := some ⟨.misalignedFetch, s.pc, s.pc⟩ }

/-- A fetched reserved word raises `ReservedCombo`: cause 3, `info` the instruction word, nothing else written; and the
five instructions raise it themselves on operand 7 (40_fetch_dispatch.md R94, 60_exceptions.md R177, decision D6). -/
def Obligations.ReservedComboTaken : Prop :=
  faultCode .reservedCombo = 3 ∧
  (∀ (s : State) (opcode : Cell), s.Running → ¬ s.Returned → s.pc % 2 = 0 →
    s.prog[s.pc]? = some opcode → s.prog[s.pc + 1]? = some 7#3 →
    opcode = 0#3 ∨ opcode = 2#3 ∨ opcode = 5#3 ∨ opcode = 6#3 ∨ opcode = 7#3 →
    step s = .next { s with fault := some ⟨.reservedCombo, s.pc, 8 * opcode.toNat + 7⟩ }) ∧
  (∀ s : State,
    exec (.adv 7#3) s = .next { s with fault := some ⟨.reservedCombo, s.pc, 7⟩ } ∧
    exec (.bst 7#3) s = .next { s with fault := some ⟨.reservedCombo, s.pc, 23⟩ } ∧
    exec (.out 7#3) s = .next { s with fault := some ⟨.reservedCombo, s.pc, 47⟩ } ∧
    exec (.bdv 7#3) s = .next { s with fault := some ⟨.reservedCombo, s.pc, 55⟩ } ∧
    exec (.cdv 7#3) s = .next { s with fault := some ⟨.reservedCombo, s.pc, 63⟩ })

/-- A division whose combo operand is negative raises `NegativeExponent`: cause 2, `info` the exponent, no register,
`pc` or `out` written; only the register operands 4, 5, 6 can be negative (41_divide.md R113, decision D3). -/
def Obligations.NegativeExponentTaken : Prop :=
  faultCode .negativeExponent = 2 ∧
  ∀ (c : Cell) (s : State) (k : Int), combo s c = some k → k < 0 →
    (c = 4#3 ∧ k = s.A ∨ c = 5#3 ∧ k = s.B ∨ c = 6#3 ∧ k = s.C) ∧
    exec (.adv c) s = .next { s with fault := some ⟨.negativeExponent, s.pc, k⟩ } ∧
    exec (.bdv c) s = .next { s with fault := some ⟨.negativeExponent, s.pc, k⟩ } ∧
    exec (.cdv c) s = .next { s with fault := some ⟨.negativeExponent, s.pc, k⟩ }

/-- Faults are precise: a step that leaves a fault has written the fault record and nothing else, and the record holds
the `pc` of the step (60_exceptions.md R178, decision D7). -/
def Obligations.FaultsArePrecise : Prop :=
  ∀ (s t : State) (r : FaultRecord), step s = .next t → t.fault = some r →
    s.fault = none ∧ r.pc = s.pc ∧ t = { s with fault := some r }

/-! ## The instructions: result, completion, frame -/

/-- `adv`: `A` divided by two to the combo operand, truncated toward zero, into `A`; corner cases and example of the
rule (41_divide.md R110, R114). The fault on a negative exponent (decision D3) is `NegativeExponentTaken`. -/
def Obligations.AdvDividesIntoA : Prop :=
  (∀ (c : Cell) (s : State) (k : Int), combo s c = some k → 0 ≤ k →
    exec (.adv c) s = .next { s with A := Int.tdiv s.A (2 ^ k.toNat), pc := s.pc + 2 }) ∧
  (∀ s : State, exec (.adv 0#3) s = .next { s with pc := s.pc + 2 }) ∧
  (∀ s : State, 0 ≤ s.A → exec (.adv 4#3) s = .next { s with A := 0, pc := s.pc + 2 }) ∧
  (∀ s : State, s.A = 729 → exec (.adv 1#3) s = .next { s with A := 364, pc := s.pc + 2 })

/-- `bdv`: the same quotient into `B`, `A` not changed; operand 0 copies `A`, operand 5 uses the old `B`
(41_divide.md R111, R114). The fault on a negative exponent (decision D3) is `NegativeExponentTaken`. -/
def Obligations.BdvDividesIntoB : Prop :=
  (∀ (c : Cell) (s : State) (k : Int), combo s c = some k → 0 ≤ k →
    exec (.bdv c) s = .next { s with B := Int.tdiv s.A (2 ^ k.toNat), pc := s.pc + 2 }) ∧
  (∀ s : State, exec (.bdv 0#3) s = .next { s with B := s.A, pc := s.pc + 2 }) ∧
  (∀ s : State, 0 ≤ s.B →
    exec (.bdv 5#3) s = .next { s with B := Int.tdiv s.A (2 ^ s.B.toNat), pc := s.pc + 2 }) ∧
  (∀ s : State, s.A = 1000 → s.B = 3 → exec (.bdv 5#3) s = .next { s with B := 125, pc := s.pc + 2 })

/-- `cdv`: the same quotient into `C`, `A` not changed; operand 0 copies `A`, operand 6 uses the old `C`
(41_divide.md R112, R114). The fault on a negative exponent (decision D3) is `NegativeExponentTaken`. -/
def Obligations.CdvDividesIntoC : Prop :=
  (∀ (c : Cell) (s : State) (k : Int), combo s c = some k → 0 ≤ k →
    exec (.cdv c) s = .next { s with C := Int.tdiv s.A (2 ^ k.toNat), pc := s.pc + 2 }) ∧
  (∀ s : State, exec (.cdv 0#3) s = .next { s with C := s.A, pc := s.pc + 2 }) ∧
  (∀ s : State, 0 ≤ s.C →
    exec (.cdv 6#3) s = .next { s with C := Int.tdiv s.A (2 ^ s.C.toNat), pc := s.pc + 2 }) ∧
  (∀ s : State, s.A = 64 → s.C = 2 → exec (.cdv 6#3) s = .next { s with C := 16, pc := s.pc + 2 })

/-- `bxl`: `B` XOR the literal, for all eight literals, no fault; encoding, corner cases and example of the rule
(42_bitwise.md R120). What `xor` is on negative values is `XorIsBitwise` (decision D2). -/
def Obligations.BxlXorsLiteral : Prop :=
  (∀ l : Cell, decode 1#3 l = .ok (.bxl l)) ∧
  (∀ (l : Cell) (s : State), exec (.bxl l) s = .next { s with B := xorInt s.B (lit l), pc := s.pc + 2 }) ∧
  (∀ b : Int, xorInt b 0 = b) ∧
  (∀ (l : Cell) (b : Int),
    xorInt (xorInt b (lit l)) (lit l) = b ∧ (xorInt b (lit l) < 0 ↔ b < 0) ∧
    Int.fdiv (xorInt b (lit l)) 8 = Int.fdiv b 8 ∧
    (∀ x : XLen, x.fits b = true → x.fits (xorInt b (lit l)) = true)) ∧
  xorInt (-1) 7 = -8 ∧ xorInt (-8) 7 = -1 ∧
  (∀ s : State, s.B = 29 → exec (.bxl 7#3) s = .next { s with B := 26, pc := s.pc + 2 })

/-- `bst`: the combo value modulo 8 into `B`, always 0 to 7, negative sources included and no fault for them; the
encoding, corner cases and example of the rule (42_bitwise.md R121). What operand 7 records and leaves unwritten is
40_fetch_dispatch.md R94 and rests on decision D6 (notes/assumptions/8.md). -/
def Obligations.BstStoresModuloEight : Prop :=
  (∀ c : Cell, c ≠ 7#3 → decode 2#3 c = .ok (.bst c)) ∧
  (∀ (c : Cell) (s : State) (v : Int), combo s c = some v →
    exec (.bst c) s = .next { s with B := v % 8, pc := s.pc + 2 } ∧ 0 ≤ v % 8 ∧ v % 8 ≤ 7) ∧
  (∀ (c : Cell) (s : State), c.toNat ≤ 3 → exec (.bst c) s = .next { s with B := c.toNat, pc := s.pc + 2 }) ∧
  (∀ s : State, exec (.bst 5#3) s = .next { s with B := s.B % 8, pc := s.pc + 2 }) ∧
  (∀ s : State, exec (.bst 7#3) s = .next { s with fault := some ⟨.reservedCombo, s.pc, 23⟩ }) ∧
  (∀ s : State, s.C = -3 → exec (.bst 6#3) s = .next { s with B := 5, pc := s.pc + 2 }) ∧
  (∀ s : State, s.A = -1 → exec (.bst 4#3) s = .next { s with B := 7, pc := s.pc + 2 }) ∧
  (∀ s : State, s.A = 2024 → exec (.bst 4#3) s = .next { s with B := 0, pc := s.pc + 2 }) ∧
  (∀ s : State, s.C = 9 → exec (.bst 6#3) s = .next { s with B := 1, pc := s.pc + 2 })

/-- `bxc`: `B` XOR `C` into `B`, the operand cell ignored: all eight words execute alike, 7 included, and none faults;
encoding, corner cases and example of the rule (42_bitwise.md R122). What `xor` is on negative values is `XorIsBitwise`
(decision D2). -/
def Obligations.BxcXorsRegisters : Prop :=
  (∀ u : Cell, decode 4#3 u = .ok (.bxc u)) ∧
  (∀ (u : Cell) (s : State), exec (.bxc u) s = .next { s with B := xorInt s.B s.C, pc := s.pc + 2 }) ∧
  (∀ a b : Int, xorInt a 0 = a ∧ xorInt a a = 0 ∧ xorInt 0 b = b ∧
    (xorInt a b < 0 ↔ (a < 0 ∧ 0 ≤ b ∨ 0 ≤ a ∧ b < 0)) ∧ (0 ≤ a → 0 ≤ b → 0 ≤ xorInt a b)) ∧
  (∀ (x : XLen) (a b : Int), x.fits a = true → x.fits b = true → x.fits (xorInt a b) = true) ∧
  xorInt (-1) 5 = -6 ∧ xorInt (-1) (-1) = 0 ∧ xorInt (2 ^ 63 - 1) (-2 ^ 63) = -1 ∧
  (∀ (u : Cell) (s : State), s.B = 2024 → s.C = 43690 →
    exec (.bxc u) s = .next { s with B := 44354, pc := s.pc + 2 })

/-- `jnz`: the `pc` becomes the literal exactly when `A ≠ 0`, negative `A` included, else it advances by 2; nothing else
is written; the target does not depend on the `pc` and is at most 7 (43_control.md R130, R131; what the next step does at
an odd target is `MisalignedFetchTaken` and `HaltTestBeforeAlignment`, decision D5). -/
def Obligations.JnzJumpsWhenANonzero : Prop :=
  (∀ l : Cell, decode 3#3 l = .ok (.jnz l)) ∧
  (∀ (l : Cell) (s : State), s.A ≠ 0 → exec (.jnz l) s = .next { s with pc := l.toNat }) ∧
  (∀ (l : Cell) (s : State), s.A = 0 → exec (.jnz l) s = .next { s with pc := s.pc + 2 }) ∧
  (∀ (l : Cell) (s t : State), s.A ≠ 0 → exec (.jnz l) s = .next t → t.pc ≤ 7)

/-- `out`: exactly one cell appended, the combo value modulo 8, negative sources included and no fault for them; the
encoding, corner cases and example of the rule (44_output.md R140). What operand 7 records and leaves unwritten is
40_fetch_dispatch.md R94 and rests on decision D6 (notes/assumptions/8.md). -/
def Obligations.OutAppendsModuloEight : Prop :=
  (∀ c : Cell, c ≠ 7#3 → decode 5#3 c = .ok (.out c)) ∧
  (∀ (c : Cell) (s : State) (v : Int), combo s c = some v →
    ∃ d : Cell, (d.toNat : Int) = v % 8 ∧
      exec (.out c) s = .next { s with out := s.out ++ [d], pc := s.pc + 2 }) ∧
  (∀ (c : Cell) (s : State), c.toNat ≤ 3 →
    exec (.out c) s = .next { s with out := s.out ++ [c], pc := s.pc + 2 }) ∧
  (∀ (c : Cell) (s t : State), c ≠ 7#3 → exec (.out c) s = .next t → t.out.length = s.out.length + 1) ∧
  (∀ s : State, exec (.out 7#3) s = .next { s with fault := some ⟨.reservedCombo, s.pc, 47⟩ }) ∧
  (∀ s : State, s.A = 2 ^ 40 + 5 → exec (.out 4#3) s = .next { s with out := s.out ++ [5#3], pc := s.pc + 2 }) ∧
  (∀ s : State, s.A = -1 → exec (.out 4#3) s = .next { s with out := s.out ++ [7#3], pc := s.pc + 2 }) ∧
  (∀ s : State, s.A = -10 → exec (.out 4#3) s = .next { s with out := s.out ++ [6#3], pc := s.pc + 2 }) ∧
  (∀ s : State, s.A = 364 → exec (.out 4#3) s = .next { s with out := s.out ++ [4#3], pc := s.pc + 2 })

/-- The frame of every instruction, from the table of registers read and written: `A` is written only by `adv`, `B` only
by `bxl`, `bst`, `bxc`, `bdv`, `C` only by `cdv`, the output only by `out`; every cell of the tape, the transaction and
the latch are as before; `bxl`, `jnz`, `bxc` write no fault (10_state.md R23, 20_memory.md R50). -/
def Obligations.InstructionFrame : Prop :=
  ∀ (i : Instr) (s t : State), exec i s = .next t →
    (i.opcode ≠ .adv → t.A = s.A) ∧
    (i.opcode ≠ .bxl → i.opcode ≠ .bst → i.opcode ≠ .bxc → i.opcode ≠ .bdv → t.B = s.B) ∧
    (i.opcode ≠ .cdv → t.C = s.C) ∧
    (i.opcode ≠ .out → t.out = s.out) ∧
    (∀ a n, memRead t.prog a n = memRead s.prog a n) ∧ t.prog.length = s.prog.length ∧
    t.form = s.form ∧ t.left0 = s.left0 ∧
    (i.opcode = .bxl ∨ i.opcode = .jnz ∨ i.opcode = .bxc → t.fault = s.fault)

/-- The program counter: 0 at reset and after every load; an instruction that completes without a fault advances it by 2,
except a taken `jnz`, which sets it to its literal with no advance (10_state.md R25). -/
def Obligations.PcAdvancesByTwoOrJumps : Prop :=
  State.reset.pc = 0 ∧
  (∀ (x : XLen) (f : Form) (cfg : HostConfig) (s : State), load x f cfg = .ok s → s.pc = 0) ∧
  (∀ (i : Instr) (s t : State), s.fault = none → exec i s = .next t → t.fault = none →
    (s.A ≠ 0 → ∀ l, i = .jnz l → t.pc = l.toNat) ∧
    (s.A = 0 ∨ i.opcode ≠ .jnz → t.pc = s.pc + 2))

/-! ## Operands -/

/-- `lit(o) = o`, an integer 0 to 7, and all eight values are legal literals (30_encoding.md R75). -/
def Obligations.LiteralIsTheCell : Prop :=
  (∀ o : Cell, lit o = (o.toNat : Int) ∧ 0 ≤ lit o ∧ lit o ≤ 7) ∧
  (∀ o : Cell, (Instr.bxl o).wellFormed = true ∧ (Instr.jnz o).wellFormed = true)

/-- The table of combo operands: 0 to 3 literal, 4, 5, 6 the whole current value of `A`, `B`, `C`, and 7 no value: the
five instructions that take a combo operand raise `ReservedCombo` on it (30_encoding.md R76). -/
def Obligations.ComboOperandTable : Prop :=
  ∀ s : State,
    combo s 0#3 = some 0 ∧ combo s 1#3 = some 1 ∧ combo s 2#3 = some 2 ∧ combo s 3#3 = some 3 ∧
    combo s 4#3 = some s.A ∧ combo s 5#3 = some s.B ∧ combo s 6#3 = some s.C ∧ combo s 7#3 = none ∧
    (∀ i : Instr, i.opcode.format = .combo → i.operand = 7#3 →
      ∃ w, exec i s = .next { s with fault := some ⟨.reservedCombo, s.pc, w⟩ })

/-! ## Arithmetic -/

/-- `tdiv(a, k)` is the sign of `a` times the floor of `|a| / 2^k`: 0 once `2^k > |a|`, a right shift for `a ≥ 0`, and
not the arithmetic right shift for `a < 0` (00_scope.md R14). -/
def Obligations.TdivIsTruncatedQuotient : Prop :=
  (∀ (a : Int) (k : Nat), tdiv a k = a.sign * ((a.natAbs / 2 ^ k : Nat) : Int)) ∧
  (∀ (a : Int) (k : Nat), a.natAbs < 2 ^ k → tdiv a k = 0) ∧
  (∀ (a : Int) (k : Nat), 0 ≤ a → tdiv a k = a >>> k) ∧
  tdiv (-7) 1 = -3

/-- The laws of the division: operand 0 is the identity, the magnitude never grows, the sign is the dividend's or the
result is 0, a negative dividend rounds up to the ceiling, and an exponent at or above a finite width gives 0
(40_fetch_dispatch.md R100; the huge exponent is decision D4). -/
def Obligations.TdivLaws : Prop :=
  (∀ a : Int, tdiv a 0 = a) ∧ (∀ k, tdiv 0 k = 0) ∧
  (∀ (a : Int) (k : Nat), (tdiv a k).natAbs ≤ a.natAbs) ∧
  (∀ (a : Int) (k : Nat), tdiv a k ≠ 0 → (tdiv a k).sign = a.sign) ∧
  (∀ (a : Int) (k : Nat), a < 0 → tdiv a k = -(Int.fdiv (-a) (2 ^ k))) ∧
  (∀ (n : Nat) (h : 64 ≤ n) (a : Int) (k : Nat), (XLen.finite n h).fits a = true → n ≤ k → tdiv a k = 0)

/-- `mod8(v)` is the unique `r` in 0 to 7 with `v - r` divisible by 8, and equals the low three bits of the two's
complement form of `v` at every width (00_scope.md R15). -/
def Obligations.Mod8IsLowThreeBits : Prop :=
  (∀ v r : Int, mod8 v = r ↔ 0 ≤ r ∧ r ≤ 7 ∧ 8 ∣ v - r) ∧
  (∀ v : Int, mod8 v = v - 8 * Int.fdiv v 8) ∧
  (∀ (v : Int) (n : Nat), 3 ≤ n → mod8 v = (((BitVec.ofInt n v).extractLsb' 0 3).toNat : Int)) ∧
  mod8 (-1) = 7

/-- `xor(a, b)` is the bitwise exclusive-or of the two's complement forms, sign-extended without limit: bit `i` is 1
exactly when the bits `i` differ, and no other integer has those bits (00_scope.md R16, 40_fetch_dispatch.md R102; the
two's complement reading is decision D2). -/
def Obligations.XorIsBitwise : Prop :=
  (∀ (a b : Int) (i : Nat), bitAt (xorInt a b) i = (bitAt a i != bitAt b i)) ∧
  (∀ a b : Int, (∀ i, bitAt a i = bitAt b i) → a = b)

/-- At every finite width that holds both operands `xor` is the exclusive-or of the two's complement words
(00_scope.md R16, decision D2). -/
def Obligations.XorAgreesWithFiniteWidth : Prop :=
  ∀ (n : Nat) (a b : Int), 0 < n →
    -(2 : Int) ^ (n - 1) ≤ a → a < (2 : Int) ^ (n - 1) → -(2 : Int) ^ (n - 1) ≤ b → b < (2 : Int) ^ (n - 1) →
    xorInt a b = (BitVec.ofInt n a ^^^ BitVec.ofInt n b).toInt

/-- The laws of XOR: commutative, its own inverse, complement by -1, and with a literal only the low three bits change
(40_fetch_dispatch.md R102, decision D2). -/
def Obligations.XorLaws : Prop :=
  (∀ a b : Int, xorInt a b = xorInt b a) ∧ (∀ a b : Int, xorInt (xorInt a b) b = a) ∧
  (∀ a : Int, xorInt a (-1) = -a - 1) ∧
  (∀ (b : Int) (l : Cell), xorInt b (lit l) = b - mod8 b + xorInt (mod8 b) (lit l))

/-! ## Invariants over every step -/

/-- Every step from a state that meets the invariant leads to one that meets it: tape well formed, `pc` within its
bound, fault record true of the state, latch only in an iteration (30_encoding.md R83, 10_state.md R26, R30, R34;
60_exceptions.md R177; the fault clauses rest on decisions D3, D5, D6, D18). -/
def Obligations.StepKeepsInvariant : Prop :=
  ∀ s t : State, s.Inv → step s = .next t → t.Inv

/-- The state after reset meets the invariant (10_state.md R36; the empty program and the zero registers of
`State.reset` are this model's choice, notes/assumptions/1.md). -/
def Obligations.ResetMeetsInvariant : Prop := State.reset.Inv

/-- Every accepted load leaves a state that meets the invariant, in both transactions
(70_reset_and_hazards.md R200, R203). -/
def Obligations.LoadMeetsInvariant : Prop :=
  ∀ (x : XLen) (f : Form) (cfg : HostConfig) (s : State), load x f cfg = .ok s → s.Inv

/-- Non-negativity is preserved by every step, and no step from non-negative registers raises `NegativeExponent`
(40_fetch_dispatch.md R107). -/
def Obligations.NonNegativityPreserved : Prop :=
  ∀ s t : State, RegsNonNeg s → step s = .next t →
    RegsNonNeg t ∧ ∀ r, t.fault = some r → r.cause ≠ .negativeExponent

/-- No step takes a register out of the range of a finite `XLEN`: there is no overflow during a run
(40_fetch_dispatch.md R104). -/
def Obligations.WidthClosure : Prop :=
  ∀ (x : XLen) (s t : State), RegsFit x s → step s = .next t → RegsFit x t

/-- The tape is never mutated once loaded: after any step every read of it answers what it answered before, and after
any number of steps from a load every read answers what the loaded tape answers (20_memory.md R61). -/
def Obligations.TapeNeverChanges : Prop :=
  (∀ s t : State, step s = .next t →
    t.prog = s.prog ∧ ∀ a n, memRead t.prog a n = memRead s.prog a n) ∧
  (∀ (x : XLen) (f : Form) (cfg : HostConfig) (s t : State) (n : Nat), load x f cfg = .ok s →
    (runUntilStop n s = .outOfFuel t ∨ ∃ r, runUntilStop n s = .stopped r t) →
    ∀ a k, memRead t.prog a k = memRead (tapeOf cfg.prog) a k)

/-- The output sequence is empty at reset and after every load; a step appends at most one cell at its end, and only when
the opcode at `pc` is 5, `out`; no instruction reads it, removes from it or reorders it: from any other output sequence,
of any length, the same step appends the same and does all else alike (10_state.md R33). -/
def Obligations.OutputIsAppendOnlyAndUnread : Prop :=
  State.reset.out = [] ∧
  (∀ (x : XLen) (f : Form) (cfg : HostConfig) (s : State), load x f cfg = .ok s → s.out = []) ∧
  (∀ s t : State, step s = .next t →
    ∃ d : List Cell, t.out = s.out ++ d ∧ d.length ≤ 1 ∧ (d ≠ [] → s.prog[s.pc]? = some 5#3) ∧
      ∀ o : List Cell, step { s with out := o } = .next { t with out := o ++ d })

/-- On a well-formed tape no step raises `ReservedCombo` or finds half an instruction: the load-time check makes both
unreachable (30_encoding.md R79, 70_reset_and_hazards.md R203; decision D6). -/
def Obligations.WellFormedTapeHasNoReservedFault : Prop :=
  ∀ s : State, Memory.wf s.prog →
    (∀ t r, step s = .next t → t.fault = some r → r.cause ≠ .reservedCombo) ∧
    (∀ a, step s ≠ .fault (.fetchPastEnd a))

/-- The iteration latch: in an iteration a step sets it exactly when it ends without a fault at `pc ≠ 0`, and never
clears it; the full run does not touch it (45_iteration_mode.md R152, 10_state.md R34; decision D11). -/
def Obligations.LatchFollowsPc : Prop :=
  ∀ s t : State, step s = .next t →
    (s.form = .iteration → (t.left0 = true ↔ s.left0 = true ∨ (t.fault = none ∧ t.pc ≠ 0))) ∧
    (s.form = .run → t.left0 = s.left0) ∧ t.form = s.form

/-! ## Load, reset, runs -/

/-- Reset: the values of R36's table, for every configuration and both transactions, and `State.reset` the one with
nothing loaded (10_state.md R36, decision D13 for the empty output; the zero registers and the empty program of
`State.reset` are this model's choice, notes/assumptions/1.md). -/
def Obligations.ResetStateTable : Prop :=
  (∀ (a b c : Int) (p : List Cell) (f : Form),
    (State.resetWith a b c p f).A = a ∧ (State.resetWith a b c p f).B = b ∧ (State.resetWith a b c p f).C = c ∧
    (State.resetWith a b c p f).pc = 0 ∧ (State.resetWith a b c p f).out = [] ∧
    (State.resetWith a b c p f).fault = none ∧ (State.resetWith a b c p f).left0 = false ∧
    (State.resetWith a b c p f).prog = p ∧ (State.resetWith a b c p f).form = f) ∧
  State.reset = State.resetWith 0 0 0 [] .run

/-- A configuration is accepted exactly when its program is well formed and its initial values fit, and the state is then
the one of reset, cell for cell the host's tape (70_reset_and_hazards.md R200, 30_encoding.md R83,
45_iteration_mode.md R151; the extent of the check rests on decision D19, the width check on D14). -/
def Obligations.LoadAcceptsExactlyWellFormed : Prop :=
  ∀ (x : XLen) (f : Form) (cfg : HostConfig) (s : State),
    load x f cfg = .ok s ↔
      (cfg.prog.length % 2 = 0 ∧ (∀ v ∈ cfg.prog, 0 ≤ v ∧ v ≤ 7) ∧
        (∀ j o p, cfg.prog[2 * j]? = some o → cfg.prog[2 * j + 1]? = some p →
          o = 0 ∨ o = 2 ∨ o = 5 ∨ o = 6 ∨ o = 7 → p ≠ 7)) ∧
      (x.fits cfg.initA = true ∧ x.fits cfg.initB = true ∧ x.fits cfg.initC = true) ∧
      s.A = cfg.initA ∧ s.B = cfg.initB ∧ s.C = cfg.initC ∧ s.pc = 0 ∧ s.out = [] ∧ s.fault = none ∧
      s.left0 = false ∧ s.form = f ∧ s.prog.map (fun c => (c.toNat : Int)) = cfg.prog

/-- `OddLength`: a tape of odd length is refused with code 1 and its length (60_exceptions.md R171), whatever else is
wrong with the configuration: that this check comes first is 60_exceptions.md R183 and rests on decision D22
(notes/assumptions/20.md), the code on D23. -/
def Obligations.OddLengthRefused : Prop :=
  ∀ (x : XLen) (f : Form) (cfg : HostConfig), cfg.prog.length % 2 = 1 →
    load x f cfg = .error (.oddLength cfg.prog.length) ∧ configErrorCode (.oddLength cfg.prog.length) = 1

/-- `CellOutOfRange`: on a tape of even length the lowest element outside 0 to 7 is reported, with code 2, its index and
its value (60_exceptions.md R172, R183; decisions D19 and D22). -/
def Obligations.CellOutOfRangeRefused : Prop :=
  ∀ (x : XLen) (f : Form) (cfg : HostConfig) (i : Nat) (v : Int), cfg.prog.length % 2 = 0 →
    cfg.prog[i]? = some v → ¬ (0 ≤ v ∧ v ≤ 7) →
    (∀ j w, j < i → cfg.prog[j]? = some w → 0 ≤ w ∧ w ≤ 7) →
    load x f cfg = .error (.cellOutOfRange i v) ∧ configErrorCode (.cellOutOfRange i v) = 2

/-- `ReservedComboOperand`: on a tape of even length whose elements are in range the lowest aligned pair with operand 7 in
combo position is reported, with code 3, its even index and its word (60_exceptions.md R173), whatever the registers
hold: that this check comes before the width check, and the lowest index, are 60_exceptions.md R183 and rest on decision
D22 (notes/assumptions/20.md), the code on D23. -/
def Obligations.ReservedComboOperandRefused : Prop :=
  ∀ (x : XLen) (f : Form) (cfg : HostConfig) (j : Nat) (o : Int), cfg.prog.length % 2 = 0 →
    (∀ v ∈ cfg.prog, 0 ≤ v ∧ v ≤ 7) →
    cfg.prog[2 * j]? = some o → cfg.prog[2 * j + 1]? = some 7 →
    (o = 0 ∨ o = 2 ∨ o = 5 ∨ o = 6 ∨ o = 7) →
    (∀ j' o', j' < j → cfg.prog[2 * j']? = some o' → cfg.prog[2 * j' + 1]? = some 7 →
      ¬ (o' = 0 ∨ o' = 2 ∨ o' = 5 ∨ o' = 6 ∨ o' = 7)) →
    load x f cfg = .error (.reservedComboOperand (2 * j) (8 * o.toNat + 7)) ∧
      configErrorCode (.reservedComboOperand (2 * j) (8 * o.toNat + 7)) = 3

/-- `RegisterWidthExceeded`: with a well-formed program and a finite `XLEN` the lowest register whose initial value does
not fit is reported, with code 4; with `XLEN = ∞` the error cannot occur (60_exceptions.md R174, R183; decisions D14
and D22). -/
def Obligations.RegisterWidthExceededRefused : Prop :=
  (∀ (x : XLen) (f : Form) (cfg : HostConfig), hostTapeWellFormed cfg.prog = true →
    (x.fits cfg.initA = false → load x f cfg = .error (.registerWidthExceeded 0 cfg.initA)) ∧
    (x.fits cfg.initA = true → x.fits cfg.initB = false →
      load x f cfg = .error (.registerWidthExceeded 1 cfg.initB)) ∧
    (x.fits cfg.initA = true → x.fits cfg.initB = true → x.fits cfg.initC = false →
      load x f cfg = .error (.registerWidthExceeded 2 cfg.initC))) ∧
  (∀ (n : Nat) (h : 64 ≤ n) (v : Int),
    (XLen.finite n h).fits v = true ↔ -(2 : Int) ^ (n - 1) ≤ v ∧ v ≤ (2 : Int) ^ (n - 1) - 1) ∧
  (∀ (f : Form) (cfg : HostConfig) (r : Fin 3) (v : Int),
    load .unbounded f cfg ≠ .error (.registerWidthExceeded r v)) ∧
  (∀ (r : Fin 3) (v : Int), configErrorCode (.registerWidthExceeded r v) = 4)

/-- The executor's fuel is no part of the machine: once a run stops, more fuel changes nothing, and where it stopped the
machine has no step (40_fetch_dispatch.md R97, R98; decision D20). -/
def Obligations.FuelChangesNoResult : Prop :=
  ∀ (n m : Nat) (s t : State) (f : Fault), runUntilStop n s = .stopped f t → n ≤ m →
    runUntilStop m s = .stopped f t ∧ step t = .fault f

/-- `Run` answers an output sequence exactly when the load succeeds and the run halts without a fault, and the answer is
then the machine's whole output (70_reset_and_hazards.md R204, 40_fetch_dispatch.md R96, R97). -/
def Obligations.RunAnswersHaltedOutput : Prop :=
  ∀ (x : XLen) (fuel : Nat) (cfg : HostConfig) (o : List Cell),
    hostRun x fuel cfg = .output o ↔
      ∃ s t, load x .run cfg = .ok s ∧ runUntilStop fuel s = .stopped .halted t ∧ t.Halted ∧ t.out = o

/-- A straight-line run: from a loaded machine whose tape has no `jnz` in an aligned pair and whose registers are
non-negative, the run halts after `PROG_LEN / 2` steps with `pc = PROG_LEN`, and its output has one cell for every
aligned pair with opcode 5, whatever the registers hold (40_fetch_dispatch.md R105, R107). -/
def Obligations.StraightLineRunHalts : Prop :=
  ∀ (x : XLen) (cfg : HostConfig) (s : State), load x .run cfg = .ok s → RegsNonNeg s → noJnzPair s.prog = true →
    ∃ t, runUntilStop (s.prog.length / 2) s = .stopped .halted t ∧
      t.pc = s.prog.length ∧ t.fault = none ∧ t.out.length = outPairs s.prog

/-- The straight-line law without a condition on the tape or the registers' signs: from a loaded machine whose run takes
no `jnz` (every one it reaches has `A = 0`) and ends in no fault, the instructions at indices 0, 2, … are executed in
that order, one a step, and the run halts after `PROG_LEN / 2` steps with `pc = PROG_LEN` and one cell for every aligned
pair with opcode 5 (40_fetch_dispatch.md R105). -/
def Obligations.UntakenJumpsRunHalts : Prop :=
  ∀ (x : XLen) (cfg : HostConfig) (s : State), load x .run cfg = .ok s →
    (∀ n t, runUntilStop n s = .outOfFuel t → t.prog[t.pc]? = some 3#3 → t.A = 0) →
    (∀ n r t, runUntilStop n s ≠ .stopped (.faulted r) t) →
    (∀ n, n < s.prog.length / 2 → ∃ t, runUntilStop n s = .outOfFuel t ∧ t.pc = 2 * n) ∧
    ∃ t, runUntilStop (s.prog.length / 2) s = .stopped .halted t ∧
      t.pc = s.prog.length ∧ t.fault = none ∧ t.out.length = outPairs s.prog

/-- A `jnz` taken to its own index repeats for ever: however many steps are made, the run has not stopped and the state
is the same (43_control.md R130, 40_fetch_dispatch.md R98; decision D20). -/
def Obligations.JnzToItselfNeverStops : Prop :=
  ∀ (s : State) (l : Cell) (n : Nat), s.fault = none → s.form = .run → s.A ≠ 0 → s.pc = l.toNat → s.pc % 2 = 0 →
    s.prog[s.pc]? = some 3#3 → s.prog[s.pc + 1]? = some l →
    runUntilStop n s = .outOfFuel s

/-- The digit of an iteration is defined exactly when the iteration did not fault and appended one cell, and is then that
cell (45_iteration_mode.md R153, decision D12). -/
def Obligations.DigitDefinedForOneCell : Prop :=
  ∀ (r : IterationResult) (d : Cell), iterationDigit r = some d ↔ r.ending ≠ .faulted ∧ r.outs = [d]

/-- `RunIteration` answers the triple at the first stop: the end it names, every cell appended, and `A` there
(45_iteration_mode.md R151 to R153; decisions D11 and D12). -/
def Obligations.IterationAnswersAtFirstStop : Prop :=
  ∀ (x : XLen) (fuel : Nat) (cfg : HostConfig) (r : IterationResult),
    hostRunIteration x fuel cfg = .result r ↔
      ∃ s t f, load x .iteration cfg = .ok s ∧ runUntilStop fuel s = .stopped f t ∧
        r.outs = t.out ∧ r.nextA = t.A ∧
        ((r.ending = .returned ∧ f = .returned) ∨ (r.ending = .halted ∧ f = .halted) ∨
          (r.ending = .faulted ∧ ∃ e, f = .faulted e))

/-! ## The host's solver (outside the hardware, 00_scope.md R4) -/

/-- The frontier of a backward step holds exactly the extensions of the frontier's values that the forward iteration
retains, without repeats when it had none before (45_iteration_mode.md R161; host software, 00_scope.md R4). -/
def Obligations.FrontierIsTheRetainedSet : Prop :=
  ∀ (x : XLen) (fuel : Nat) (b c : Int) (prog : List Int) (target : Cell) (frontier kept : List Int),
    nextFrontier x fuel b c prog target frontier = .ok kept →
    (∀ w, w ∈ kept ↔ ∃ v ∈ frontier, ∃ e : Nat, e < 8 ∧ w = v * 8 + e ∧
      tryCandidate x fuel b c prog target v w = .ok true) ∧
    (frontier.Nodup → kept.Nodup)

/-- A value the solver answers reproduces the program: the round-trip law, made by the post-search validation
(45_iteration_mode.md R163; host software, 00_scope.md R4). -/
def Obligations.SolverAnswerIsQuine : Prop :=
  ∀ (x : XLen) (fuel : Nat) (b c : Int) (prog : List Int) (a : Int),
    findMinimalA x fuel b c prog = .found a →
    hostRun x fuel ⟨a, b, c, prog⟩ = .output (tapeOf prog)
end

