-- ==== Sys2Proof/Laws/Arith.lean ====
section
/-!
SUPPORT. The arithmetic operations in the library's terms: `tdiv` is truncating division, `mod8` is the Euclidean
remainder, and `xorInt` on each pair of signs.
-/

namespace Sys2Proof.Machine

/-- `tdiv` on a non-negative dividend. -/
theorem tdiv_ofNat (m k : Nat) : tdiv (m : Int) k = ((m / 2 ^ k : Nat) : Int) := by
  rcases Nat.eq_zero_or_pos m with rfl | h
  · simp [tdiv, Nat.shiftRight_eq_div_pow]
  · simp [tdiv, Nat.shiftRight_eq_div_pow, Int.sign_natCast_of_ne_zero (by omega : m ≠ 0)]

/-- `tdiv` on a negated dividend is the negated quotient. -/
theorem tdiv_neg (a : Int) (k : Nat) : tdiv (-a) k = -tdiv a k := by
  simp [tdiv]

/-- `mod8` is the Euclidean remainder. -/
theorem mod8_eq_emod (v : Int) : mod8 v = v % 8 := by
  have h : v.fdiv 8 = v / 8 := Int.fdiv_eq_ediv_of_nonneg v (by decide)
  unfold mod8
  rw [h]
  omega

theorem mod8_nonneg (v : Int) : 0 ≤ mod8 v := by
  rw [mod8_eq_emod]
  omega

theorem mod8_le (v : Int) : mod8 v ≤ 7 := by
  rw [mod8_eq_emod]
  omega

/-- The cell of an integer holds its remainder modulo 8. -/
theorem cellOf_toNat (v : Int) : ((cellOf v).toNat : Int) = v % 8 := by
  simp [cellOf, BitVec.toNat_ofInt]
  omega

theorem xorInt_nat_nat (m n : Nat) : xorInt m n = ((m ^^^ n : Nat) : Int) := rfl

theorem xorInt_nat_neg (m n : Nat) : xorInt m (-(n : Int) - 1) = -((m ^^^ n : Nat) : Int) - 1 := by
  have h : ∀ n : Nat, -(n : Int) - 1 = .negSucc n := fun n => by omega
  rw [h, h]
  rfl

theorem xorInt_neg_nat (m n : Nat) : xorInt (-(m : Int) - 1) n = -((m ^^^ n : Nat) : Int) - 1 := by
  have h : ∀ n : Nat, -(n : Int) - 1 = .negSucc n := fun n => by omega
  rw [h, h]
  rfl

theorem xorInt_neg_neg (m n : Nat) : xorInt (-(m : Int) - 1) (-(n : Int) - 1) = ((m ^^^ n : Nat) : Int) := by
  have h : ∀ n : Nat, -(n : Int) - 1 = .negSucc n := fun n => by omega
  rw [h, h]
  rfl

end Sys2Proof.Machine
end

