-- ==== Sys2Proof/Laws/State.lean ====
section
/-!
SUPPORT. The state's small laws: for every update, what each field reads afterwards, so that no later proof unfolds a
record update; and the fields of the reset state.
-/

namespace Sys2Proof.Machine

/-! ### `setA` -/

@[simp] theorem State.setA_A (s : State) (v : RegVal) : (s.setA v).A = v := rfl
@[simp] theorem State.setA_B (s : State) (v : RegVal) : (s.setA v).B = s.B := rfl
@[simp] theorem State.setA_C (s : State) (v : RegVal) : (s.setA v).C = s.C := rfl
@[simp] theorem State.setA_pc (s : State) (v : RegVal) : (s.setA v).pc = s.pc := rfl
@[simp] theorem State.setA_out (s : State) (v : RegVal) : (s.setA v).out = s.out := rfl
@[simp] theorem State.setA_fault (s : State) (v : RegVal) : (s.setA v).fault = s.fault := rfl
@[simp] theorem State.setA_left0 (s : State) (v : RegVal) : (s.setA v).left0 = s.left0 := rfl
@[simp] theorem State.setA_prog (s : State) (v : RegVal) : (s.setA v).prog = s.prog := rfl
@[simp] theorem State.setA_form (s : State) (v : RegVal) : (s.setA v).form = s.form := rfl

/-! ### `setB` -/

@[simp] theorem State.setB_A (s : State) (v : RegVal) : (s.setB v).A = s.A := rfl
@[simp] theorem State.setB_B (s : State) (v : RegVal) : (s.setB v).B = v := rfl
@[simp] theorem State.setB_C (s : State) (v : RegVal) : (s.setB v).C = s.C := rfl
@[simp] theorem State.setB_pc (s : State) (v : RegVal) : (s.setB v).pc = s.pc := rfl
@[simp] theorem State.setB_out (s : State) (v : RegVal) : (s.setB v).out = s.out := rfl
@[simp] theorem State.setB_fault (s : State) (v : RegVal) : (s.setB v).fault = s.fault := rfl
@[simp] theorem State.setB_left0 (s : State) (v : RegVal) : (s.setB v).left0 = s.left0 := rfl
@[simp] theorem State.setB_prog (s : State) (v : RegVal) : (s.setB v).prog = s.prog := rfl
@[simp] theorem State.setB_form (s : State) (v : RegVal) : (s.setB v).form = s.form := rfl

/-! ### `setC` -/

@[simp] theorem State.setC_A (s : State) (v : RegVal) : (s.setC v).A = s.A := rfl
@[simp] theorem State.setC_B (s : State) (v : RegVal) : (s.setC v).B = s.B := rfl
@[simp] theorem State.setC_C (s : State) (v : RegVal) : (s.setC v).C = v := rfl
@[simp] theorem State.setC_pc (s : State) (v : RegVal) : (s.setC v).pc = s.pc := rfl
@[simp] theorem State.setC_out (s : State) (v : RegVal) : (s.setC v).out = s.out := rfl
@[simp] theorem State.setC_fault (s : State) (v : RegVal) : (s.setC v).fault = s.fault := rfl
@[simp] theorem State.setC_left0 (s : State) (v : RegVal) : (s.setC v).left0 = s.left0 := rfl
@[simp] theorem State.setC_prog (s : State) (v : RegVal) : (s.setC v).prog = s.prog := rfl
@[simp] theorem State.setC_form (s : State) (v : RegVal) : (s.setC v).form = s.form := rfl

/-! ### `setPc` -/

@[simp] theorem State.setPc_A (s : State) (a : Nat) : (s.setPc a).A = s.A := rfl
@[simp] theorem State.setPc_B (s : State) (a : Nat) : (s.setPc a).B = s.B := rfl
@[simp] theorem State.setPc_C (s : State) (a : Nat) : (s.setPc a).C = s.C := rfl
@[simp] theorem State.setPc_pc (s : State) (a : Nat) : (s.setPc a).pc = a := rfl
@[simp] theorem State.setPc_out (s : State) (a : Nat) : (s.setPc a).out = s.out := rfl
@[simp] theorem State.setPc_fault (s : State) (a : Nat) : (s.setPc a).fault = s.fault := rfl
@[simp] theorem State.setPc_left0 (s : State) (a : Nat) : (s.setPc a).left0 = s.left0 := rfl
@[simp] theorem State.setPc_prog (s : State) (a : Nat) : (s.setPc a).prog = s.prog := rfl
@[simp] theorem State.setPc_form (s : State) (a : Nat) : (s.setPc a).form = s.form := rfl

/-! ### `outAppend` -/

@[simp] theorem State.outAppend_A (s : State) (d : Cell) : (s.outAppend d).A = s.A := rfl
@[simp] theorem State.outAppend_B (s : State) (d : Cell) : (s.outAppend d).B = s.B := rfl
@[simp] theorem State.outAppend_C (s : State) (d : Cell) : (s.outAppend d).C = s.C := rfl
@[simp] theorem State.outAppend_pc (s : State) (d : Cell) : (s.outAppend d).pc = s.pc := rfl
@[simp] theorem State.outAppend_out (s : State) (d : Cell) : (s.outAppend d).out = s.out ++ [d] := rfl
@[simp] theorem State.outAppend_fault (s : State) (d : Cell) : (s.outAppend d).fault = s.fault := rfl
@[simp] theorem State.outAppend_left0 (s : State) (d : Cell) : (s.outAppend d).left0 = s.left0 := rfl
@[simp] theorem State.outAppend_prog (s : State) (d : Cell) : (s.outAppend d).prog = s.prog := rfl
@[simp] theorem State.outAppend_form (s : State) (d : Cell) : (s.outAppend d).form = s.form := rfl

/-! ### `setFault` -/

@[simp] theorem State.setFault_A (s : State) (r : FaultRecord) : (s.setFault r).A = s.A := rfl
@[simp] theorem State.setFault_B (s : State) (r : FaultRecord) : (s.setFault r).B = s.B := rfl
@[simp] theorem State.setFault_C (s : State) (r : FaultRecord) : (s.setFault r).C = s.C := rfl
@[simp] theorem State.setFault_pc (s : State) (r : FaultRecord) : (s.setFault r).pc = s.pc := rfl
@[simp] theorem State.setFault_out (s : State) (r : FaultRecord) : (s.setFault r).out = s.out := rfl
@[simp] theorem State.setFault_fault (s : State) (r : FaultRecord) : (s.setFault r).fault = some r := rfl
@[simp] theorem State.setFault_left0 (s : State) (r : FaultRecord) : (s.setFault r).left0 = s.left0 := rfl
@[simp] theorem State.setFault_prog (s : State) (r : FaultRecord) : (s.setFault r).prog = s.prog := rfl
@[simp] theorem State.setFault_form (s : State) (r : FaultRecord) : (s.setFault r).form = s.form := rfl

/-! ### `setLeft0` -/

@[simp] theorem State.setLeft0_A (s : State) (b : Bool) : (s.setLeft0 b).A = s.A := rfl
@[simp] theorem State.setLeft0_B (s : State) (b : Bool) : (s.setLeft0 b).B = s.B := rfl
@[simp] theorem State.setLeft0_C (s : State) (b : Bool) : (s.setLeft0 b).C = s.C := rfl
@[simp] theorem State.setLeft0_pc (s : State) (b : Bool) : (s.setLeft0 b).pc = s.pc := rfl
@[simp] theorem State.setLeft0_out (s : State) (b : Bool) : (s.setLeft0 b).out = s.out := rfl
@[simp] theorem State.setLeft0_fault (s : State) (b : Bool) : (s.setLeft0 b).fault = s.fault := rfl
@[simp] theorem State.setLeft0_left0 (s : State) (b : Bool) : (s.setLeft0 b).left0 = b := rfl
@[simp] theorem State.setLeft0_prog (s : State) (b : Bool) : (s.setLeft0 b).prog = s.prog := rfl
@[simp] theorem State.setLeft0_form (s : State) (b : Bool) : (s.setLeft0 b).form = s.form := rfl

/-! ### `advance` -/

@[simp] theorem State.advance_A (s : State) : (s.advance).A = s.A := rfl
@[simp] theorem State.advance_B (s : State) : (s.advance).B = s.B := rfl
@[simp] theorem State.advance_C (s : State) : (s.advance).C = s.C := rfl
@[simp] theorem State.advance_pc (s : State) : (s.advance).pc = s.pc + 2 := rfl
@[simp] theorem State.advance_out (s : State) : (s.advance).out = s.out := rfl
@[simp] theorem State.advance_fault (s : State) : (s.advance).fault = s.fault := rfl
@[simp] theorem State.advance_left0 (s : State) : (s.advance).left0 = s.left0 := rfl
@[simp] theorem State.advance_prog (s : State) : (s.advance).prog = s.prog := rfl
@[simp] theorem State.advance_form (s : State) : (s.advance).form = s.form := rfl

/-! ### reset -/

@[simp] theorem State.resetWith_A (a b c : RegVal) (p : List Cell) (f : Form) :
    (State.resetWith a b c p f).A = a := rfl
@[simp] theorem State.resetWith_B (a b c : RegVal) (p : List Cell) (f : Form) :
    (State.resetWith a b c p f).B = b := rfl
@[simp] theorem State.resetWith_C (a b c : RegVal) (p : List Cell) (f : Form) :
    (State.resetWith a b c p f).C = c := rfl
@[simp] theorem State.resetWith_pc (a b c : RegVal) (p : List Cell) (f : Form) :
    (State.resetWith a b c p f).pc = 0 := rfl
@[simp] theorem State.resetWith_out (a b c : RegVal) (p : List Cell) (f : Form) :
    (State.resetWith a b c p f).out = [] := rfl
@[simp] theorem State.resetWith_fault (a b c : RegVal) (p : List Cell) (f : Form) :
    (State.resetWith a b c p f).fault = none := rfl
@[simp] theorem State.resetWith_left0 (a b c : RegVal) (p : List Cell) (f : Form) :
    (State.resetWith a b c p f).left0 = false := rfl
@[simp] theorem State.resetWith_prog (a b c : RegVal) (p : List Cell) (f : Form) :
    (State.resetWith a b c p f).prog = p := rfl
@[simp] theorem State.resetWith_form (a b c : RegVal) (p : List Cell) (f : Form) :
    (State.resetWith a b c p f).form = f := rfl

/-! ### registers by number -/

@[simp] theorem readReg_zero (s : State) : readReg s 0 = s.A := rfl
@[simp] theorem readReg_one (s : State) : readReg s 1 = s.B := rfl
@[simp] theorem readReg_two (s : State) : readReg s 2 = s.C := rfl
@[simp] theorem writeReg_zero (s : State) (v : RegVal) : writeReg s 0 v = s.setA v := rfl
@[simp] theorem writeReg_one (s : State) (v : RegVal) : writeReg s 1 v = s.setB v := rfl
@[simp] theorem writeReg_two (s : State) (v : RegVal) : writeReg s 2 v = s.setC v := rfl

end Sys2Proof.Machine
end

