-- ==== Sys2Proof/Laws/Operands.lean ====
section
/-!
SUPPORT. What each shared operation on operands and faults can do, said once: the cases of a combo operand, of an
exponent, and the read of the tape.
-/

namespace Sys2Proof.Machine

theorem cell_toNat_le (o : Cell) : o.toNat ≤ 7 := Nat.le_of_lt_succ o.isLt

@[simp] theorem lit_toNat (o : Cell) : (lit o).toNat = o.toNat := Int.toNat_natCast _

theorem lit_eq_natCast (o : Cell) : lit o = (o.toNat : Int) := rfl

theorem lit_nonneg (o : Cell) : 0 ≤ lit o := Int.natCast_nonneg _

/-- A combo operand is a literal 0 to 3, the value of a register, or reserved. -/
theorem combo_cases (s : State) (o : Cell) :
    (o.toNat ≤ 3 ∧ combo s o = some (o.toNat : Int)) ∨ (o = 4#3 ∧ combo s o = some s.A) ∨
    (o = 5#3 ∧ combo s o = some s.B) ∨ (o = 6#3 ∧ combo s o = some s.C) ∨ (o = 7#3 ∧ combo s o = none) := by
  unfold combo
  by_cases h3 : o.toNat ≤ 3
  · exact .inl ⟨h3, if_pos h3⟩
  · have h : ∀ o : Cell, ¬ o.toNat ≤ 3 → o = 4#3 ∨ o = 5#3 ∨ o = 6#3 ∨ o = 7#3 := by decide
    rcases h o h3 with rfl | rfl | rfl | rfl <;> simp

/-- Only the reserved operand has no value. -/
theorem combo_eq_none_iff (s : State) (o : Cell) : combo s o = none ↔ o = 7#3 := by
  constructor
  · intro h
    rcases combo_cases s o with ⟨_, e⟩ | ⟨_, e⟩ | ⟨_, e⟩ | ⟨_, e⟩ | ⟨rfl, _⟩ <;> simp_all
  · rintro rfl
    rfl

/-- `raise` answers the state with the fault record written and nothing else. -/
@[simp] theorem raise_eq (cause : FaultCause) (info : Int) (s : State) :
    raise cause info s = .next (s.setFault ⟨cause, s.pc, info⟩) := rfl

theorem withCombo_of_some {op : Opcode} {c : Cell} {s : State} {use : Int → Result} {v : Int}
    (h : combo s c = some v) : withCombo op c s use = use v := by
  simp [withCombo, h]

theorem withCombo_of_none {op : Opcode} {c : Cell} {s : State} {use : Int → Result}
    (h : combo s c = none) :
    withCombo op c s use = .next (s.setFault ⟨.reservedCombo, s.pc, packWord op.toCell c⟩) := by
  simp [withCombo, h]

/-- A combo operand is resolved, or the reserved one raises its fault: there is no third case. -/
theorem withCombo_cases (op : Opcode) (c : Cell) (s : State) (use : Int → Result) :
    (∃ v, combo s c = some v ∧ withCombo op c s use = use v) ∨
    (c = 7#3 ∧ withCombo op c s use = .next (s.setFault ⟨.reservedCombo, s.pc, packWord op.toCell c⟩)) := by
  cases h : combo s c with
  | none => exact .inr ⟨(combo_eq_none_iff s c).mp h, withCombo_of_none h⟩
  | some v => exact .inl ⟨v, rfl, withCombo_of_some h⟩

/-- An exponent is a natural number, or its instruction raises one of two faults. -/
theorem withExponent_cases (op : Opcode) (c : Cell) (s : State) (use : Nat → Result) :
    (∃ k, combo s c = some k ∧ 0 ≤ k ∧ withExponent op c s use = use k.toNat) ∨
    (∃ k, combo s c = some k ∧ k < 0 ∧
      withExponent op c s use = .next (s.setFault ⟨.negativeExponent, s.pc, k⟩)) ∨
    (c = 7#3 ∧
      withExponent op c s use = .next (s.setFault ⟨.reservedCombo, s.pc, packWord op.toCell c⟩)) := by
  unfold withExponent
  rcases withCombo_cases op c s (fun k => if k < 0 then raise .negativeExponent k s else use k.toNat) with
    ⟨k, hk, h⟩ | ⟨hc, h⟩
  · by_cases hneg : k < 0
    · exact .inr (.inl ⟨k, hk, hneg, by rw [h, if_pos hneg]; rfl⟩)
    · exact .inl ⟨k, hk, Int.not_lt.mp hneg, by rw [h, if_neg hneg]⟩
  · exact .inr (.inr ⟨hc, h⟩)

/-- Reading two cells of the tape answers exactly the two at the index and after it. -/
theorem memRead_two_iff (prog : List Cell) (a : Nat) (x y : Cell) :
    memRead prog a 2 = some [x, y] ↔ prog[a]? = some x ∧ prog[a + 1]? = some y := by
  unfold memRead
  constructor
  · intro h
    split at h
    · rename_i hl
      simp only [Option.some.injEq] at h
      have h0 := congrArg (fun l => l[0]?) h
      have h1 := congrArg (fun l => l[1]?) h
      simp at h0 h1
      exact ⟨h0, h1⟩
    · cases h
  · rintro ⟨h0, h1⟩
    have hl := (List.getElem?_eq_some_iff.mp h1).1
    rw [if_pos (by omega), List.drop_eq_getElem_cons (by omega), List.drop_eq_getElem_cons (by omega)]
    rw [List.getElem?_eq_some_iff] at h0 h1
    simp [h0.2, h1.2]

/-- Below the end of the tape two cells are there to read. -/
theorem memRead_two_of_lt {prog : List Cell} {a : Nat} (h : a + 1 < prog.length) :
    memRead prog a 2 = some [prog[a], prog[a + 1]] :=
  (memRead_two_iff _ _ _ _).mpr ⟨List.getElem?_eq_getElem _, List.getElem?_eq_getElem _⟩

/-- Past the end there are not. -/
theorem memRead_two_of_not_lt {prog : List Cell} {a : Nat} (h : ¬ a + 1 < prog.length) :
    memRead prog a 2 = none := if_neg (by omega)

end Sys2Proof.Machine
end

