-- ==== Sys2Proof/Laws/PerInstr.lean ====
section
/-!
SUPPORT. One lemma per instruction about its words: its opcode cell and its operand cell are those of 30_encoding.md R77,
and it is well formed exactly when its two cells are no reserved word (R78).
-/

namespace Sys2Proof.Laws.WordForm

/-- The words of an instruction: the opcode cell selects its operation, the operand cell is its operand, and it is well
formed exactly when the pair is not reserved. -/
def Statement (i : Instr) : Prop :=
  Opcode.ofCell (encode i).1 = i.opcode ∧ (encode i).1 = i.opcode.toCell ∧ (encode i).2 = i.operand ∧
  i.wellFormed = !isReservedPair (encode i).1 (encode i).2

theorem adv (c : Cell) : Statement (.adv c) := ⟨rfl, rfl, rfl, by revert c; decide⟩
theorem bxl (l : Cell) : Statement (.bxl l) := ⟨rfl, rfl, rfl, by revert l; decide⟩
theorem bst (c : Cell) : Statement (.bst c) := ⟨rfl, rfl, rfl, by revert c; decide⟩
theorem jnz (l : Cell) : Statement (.jnz l) := ⟨rfl, rfl, rfl, by revert l; decide⟩
theorem bxc (u : Cell) : Statement (.bxc u) := ⟨rfl, rfl, rfl, by revert u; decide⟩
theorem out (c : Cell) : Statement (.out c) := ⟨rfl, rfl, rfl, by revert c; decide⟩
theorem bdv (c : Cell) : Statement (.bdv c) := ⟨rfl, rfl, rfl, by revert c; decide⟩
theorem cdv (c : Cell) : Statement (.cdv c) := ⟨rfl, rfl, rfl, by revert c; decide⟩

end Sys2Proof.Laws.WordForm
end

