-- ==== Sys2Proof/Laws/Step.lean ====
section
/-!
SUPPORT. What an instruction and a step can do, said once: the inversion of `exec`, of `runPair`, of `fetchAndRun` and
of `step`, and placing a word for the next fetch.
-/

namespace Sys2Proof.Machine

/-- What a division can answer. -/
theorem divideInto_cases (op : Opcode) (dst : Fin 3) (c : Cell) (s : State) :
    (∃ k, combo s c = some k ∧ 0 ≤ k ∧
      divideInto op dst c s = .next (writeReg s dst (tdiv s.A k.toNat)).advance) ∨
    (∃ k, combo s c = some k ∧ k < 0 ∧
      divideInto op dst c s = .next (s.setFault ⟨.negativeExponent, s.pc, k⟩)) ∨
    (c = 7#3 ∧ divideInto op dst c s = .next (s.setFault ⟨.reservedCombo, s.pc, packWord op.toCell c⟩)) :=
  withExponent_cases op c s _

/-- What `bst` can answer. -/
theorem execBst_cases (c : Cell) (s : State) :
    (∃ v, combo s c = some v ∧ execBst c s = .next (s.setB (mod8 v)).advance) ∨
    (c = 7#3 ∧ execBst c s = .next (s.setFault ⟨.reservedCombo, s.pc, packWord Opcode.bst.toCell c⟩)) :=
  withCombo_cases .bst c s _

/-- What `out` can answer. -/
theorem execOut_cases (c : Cell) (s : State) :
    (∃ v, combo s c = some v ∧ execOut c s = .next (s.outAppend (cellOf (mod8 v))).advance) ∨
    (c = 7#3 ∧ execOut c s = .next (s.setFault ⟨.reservedCombo, s.pc, packWord Opcode.out.toCell c⟩)) :=
  withCombo_cases .out c s _

theorem execJnz_of_ne {l : Cell} {s : State} (h : s.A ≠ 0) : execJnz l s = .next (s.setPc l.toNat) := by
  simp [execJnz, condANonzero, h]

theorem execJnz_of_eq {l : Cell} {s : State} (h : s.A = 0) : execJnz l s = .next s.advance := by
  simp [execJnz, condANonzero, h]

/-- Everything an instruction can answer: its effect, or one of the two faults an instruction raises. -/
theorem exec_cases (i : Instr) (s : State) :
    ∃ t, exec i s = .next t ∧
      ((∃ k, combo s i.operand = some k ∧ 0 ≤ k ∧ i.opcode = .adv ∧ t = (s.setA (tdiv s.A k.toNat)).advance) ∨
       (∃ k, combo s i.operand = some k ∧ 0 ≤ k ∧ i.opcode = .bdv ∧ t = (s.setB (tdiv s.A k.toNat)).advance) ∨
       (∃ k, combo s i.operand = some k ∧ 0 ≤ k ∧ i.opcode = .cdv ∧ t = (s.setC (tdiv s.A k.toNat)).advance) ∨
       (i.opcode = .bxl ∧ t = (s.setB (xorInt s.B (lit i.operand))).advance) ∨
       (∃ v, combo s i.operand = some v ∧ i.opcode = .bst ∧ t = (s.setB (mod8 v)).advance) ∨
       (i.opcode = .bxc ∧ t = (s.setB (xorInt s.B s.C)).advance) ∨
       (s.A ≠ 0 ∧ i.opcode = .jnz ∧ t = s.setPc i.operand.toNat) ∨
       (s.A = 0 ∧ i.opcode = .jnz ∧ t = s.advance) ∨
       (∃ v, combo s i.operand = some v ∧ i.opcode = .out ∧ t = (s.outAppend (cellOf (mod8 v))).advance) ∨
       (∃ k, combo s i.operand = some k ∧ k < 0 ∧ (i.opcode = .adv ∨ i.opcode = .bdv ∨ i.opcode = .cdv) ∧
          t = s.setFault ⟨.negativeExponent, s.pc, k⟩) ∨
       (i.operand = 7#3 ∧ i.opcode.format = .combo ∧
          t = s.setFault ⟨.reservedCombo, s.pc, packWord i.opcode.toCell i.operand⟩)) := by
  cases i with
  | adv c =>
    rcases divideInto_cases .adv 0 c s with ⟨k, hk, h0, h⟩ | ⟨k, hk, h0, h⟩ | ⟨hc, h⟩ <;> refine ⟨_, h, ?_⟩ <;>
      simp_all [Instr.opcode, Instr.operand, Opcode.format]
  | bdv c =>
    rcases divideInto_cases .bdv 1 c s with ⟨k, hk, h0, h⟩ | ⟨k, hk, h0, h⟩ | ⟨hc, h⟩ <;> refine ⟨_, h, ?_⟩ <;>
      simp_all [Instr.opcode, Instr.operand, Opcode.format]
  | cdv c =>
    rcases divideInto_cases .cdv 2 c s with ⟨k, hk, h0, h⟩ | ⟨k, hk, h0, h⟩ | ⟨hc, h⟩ <;> refine ⟨_, h, ?_⟩ <;>
      simp_all [Instr.opcode, Instr.operand, Opcode.format]
  | bxl l => exact ⟨_, rfl, by simp [Instr.opcode, Instr.operand]⟩
  | bxc u => exact ⟨_, rfl, by simp [Instr.opcode, Instr.operand]⟩
  | bst c =>
    rcases execBst_cases c s with ⟨v, hv, h⟩ | ⟨hc, h⟩ <;> refine ⟨_, h, ?_⟩ <;>
      simp_all [Instr.opcode, Instr.operand, Opcode.format]
  | out c =>
    rcases execOut_cases c s with ⟨v, hv, h⟩ | ⟨hc, h⟩ <;> refine ⟨_, h, ?_⟩ <;>
      simp_all [Instr.opcode, Instr.operand, Opcode.format]
  | jnz l =>
    by_cases hA : s.A = 0
    · exact ⟨_, execJnz_of_eq hA, by simp [Instr.opcode, hA]⟩
    · exact ⟨_, execJnz_of_ne hA, by simp [Instr.opcode, Instr.operand, hA]⟩

/-- No instruction writes the tape, the transaction or the latch. -/
theorem exec_keeps_load {i : Instr} {s t : State} (h : exec i s = .next t) :
    t.prog = s.prog ∧ t.form = s.form ∧ t.left0 = s.left0 := by
  obtain ⟨t', ht, hc⟩ := exec_cases i s
  obtain rfl : t' = t := Host.Outcome.next.inj (ht.symm.trans h)
  rcases hc with ⟨_, _, _, _, rfl⟩ | ⟨_, _, _, _, rfl⟩ | ⟨_, _, _, _, rfl⟩ | ⟨_, rfl⟩ | ⟨_, _, _, rfl⟩ | ⟨_, rfl⟩ |
    ⟨_, _, rfl⟩ | ⟨_, _, rfl⟩ | ⟨_, _, _, rfl⟩ | ⟨_, _, _, _, rfl⟩ | ⟨_, _, rfl⟩ <;> exact ⟨rfl, rfl, rfl⟩

/-- A fetched pair is an instruction, or a reserved word that raises its fault. -/
theorem runPair_cases (opcode operand : Cell) (s : State) :
    (∃ i, decode opcode operand = .ok i ∧ runPair opcode operand s = exec i s) ∨
    (isReservedPair opcode operand = true ∧
      runPair opcode operand s = .next (s.setFault ⟨.reservedCombo, s.pc, packWord opcode operand⟩)) := by
  unfold runPair decode
  by_cases h : isReservedPair opcode operand = true
  · exact .inr ⟨h, by simp [h]⟩
  · exact .inl ⟨Instr.ofParts (Opcode.ofCell opcode) operand, by simp [h], by simp [h]⟩

/-- Why a machine has no step, in the order of the tests. -/
theorem stopReason_cases (s : State) :
    (∃ r, s.fault = some r ∧ stopReason s = some (.faulted r)) ∨
    (s.fault = none ∧ s.prog.length ≤ s.pc ∧ stopReason s = some .halted) ∨
    (s.fault = none ∧ s.pc < s.prog.length ∧ (s.form = .iteration ∧ s.left0 = true ∧ s.pc = 0) ∧
      stopReason s = some .returned) ∨
    (s.fault = none ∧ s.pc < s.prog.length ∧ ¬ (s.form = .iteration ∧ s.left0 = true ∧ s.pc = 0) ∧
      stopReason s = none) := by
  unfold stopReason
  cases hf : s.fault with
  | some r => exact .inl ⟨r, rfl, rfl⟩
  | none =>
    by_cases hl : s.prog.length ≤ s.pc
    · exact .inr (.inl ⟨rfl, hl, if_pos hl⟩)
    · by_cases hr : s.form = .iteration ∧ s.left0 = true ∧ s.pc = 0
      · exact .inr (.inr (.inl ⟨rfl, by omega, hr, by simp only [if_neg hl, if_pos hr]⟩))
      · exact .inr (.inr (.inr ⟨rfl, by omega, hr, by simp only [if_neg hl, if_neg hr]⟩))

/-- What a step of a running machine can be: an odd fetch, a fetched pair, or (only at the last cell of a tape of odd
length) a stop. -/
theorem fetchAndRun_cases (s : State) :
    (s.pc % 2 = 1 ∧ fetchAndRun s = .next (s.setFault ⟨.misalignedFetch, s.pc, s.pc⟩)) ∨
    (∃ x y, s.pc % 2 = 0 ∧ s.prog[s.pc]? = some x ∧ s.prog[s.pc + 1]? = some y ∧
      fetchAndRun s = runPair x y s) ∨
    (s.pc % 2 = 0 ∧ s.prog.length ≤ s.pc + 1 ∧ fetchAndRun s = .fault (.fetchPastEnd s.pc)) := by
  unfold fetchAndRun
  by_cases hodd : s.pc % 2 = 1
  · exact .inl ⟨hodd, by simp [hodd]⟩
  · by_cases hl : s.pc + 1 < s.prog.length
    · refine .inr (.inl ⟨_, _, by omega, List.getElem?_eq_getElem (by omega), List.getElem?_eq_getElem hl, ?_⟩)
      rw [if_neg hodd, memRead_two_of_lt hl]
    · refine .inr (.inr ⟨by omega, by omega, ?_⟩)
      rw [if_neg hodd, memRead_two_of_not_lt hl]

/-- The latch writes `left0` and nothing else. -/
theorem latchLeft0_eq (t : State) :
    latchLeft0 t =
      { t with left0 := t.left0 || decide (t.form = .iteration ∧ t.fault = none ∧ t.pc ≠ 0) } := by
  unfold latchLeft0
  split
  · rename_i h
    simp [State.setLeft0, h.1, h.2.1, h.2.2]
  · rename_i h
    simp [h]

/-- The inversion of a step: the state was running and not back at index 0, and the next state is, up to the latch, an
odd fetch's fault, a reserved word's fault, or what the instruction at `pc` answers. -/
theorem step_next_cases {s t : State} (h : step s = .next t) :
    s.fault = none ∧ s.pc < s.prog.length ∧ ¬ (s.form = .iteration ∧ s.left0 = true ∧ s.pc = 0) ∧
    ∃ u, t = latchLeft0 u ∧
      ((s.pc % 2 = 1 ∧ u = s.setFault ⟨.misalignedFetch, s.pc, s.pc⟩) ∨
       ∃ x y, s.pc % 2 = 0 ∧ s.prog[s.pc]? = some x ∧ s.prog[s.pc + 1]? = some y ∧
        ((isReservedPair x y = true ∧ u = s.setFault ⟨.reservedCombo, s.pc, packWord x y⟩) ∨
         ∃ i, decode x y = .ok i ∧ exec i s = .next u)) := by
  unfold step at h
  rcases stopReason_cases s with ⟨r, _, e⟩ | ⟨_, _, e⟩ | ⟨_, _, _, e⟩ | ⟨hf, hl, hr, e⟩ <;> rw [e] at h
  · cases h
  · cases h
  · cases h
  · refine ⟨hf, hl, hr, ?_⟩
    rcases fetchAndRun_cases s with ⟨ho, e⟩ | ⟨x, y, he, hx, hy, e⟩ | ⟨_, _, e⟩
    · rw [e] at h
      exact ⟨_, (Host.Outcome.next.inj h).symm, .inl ⟨ho, rfl⟩⟩
    · rcases runPair_cases x y s with ⟨i, hi, e'⟩ | ⟨hres, e'⟩
      · obtain ⟨u, hu, -⟩ := exec_cases i s
        rw [e, e', hu] at h
        exact ⟨u, (Host.Outcome.next.inj h).symm, .inr ⟨x, y, he, hx, hy, .inr ⟨i, hi, hu⟩⟩⟩
      · rw [e, e'] at h
        exact ⟨_, (Host.Outcome.next.inj h).symm, .inr ⟨x, y, he, hx, hy, .inl ⟨hres, rfl⟩⟩⟩
    · rw [e] at h
      cases h

/-- A running machine at an even `pc` over a whole pair makes a step: what the pair answers, with the latch observed. -/
theorem step_of_pair {s : State} {x y : Cell} (hf : s.fault = none) (hr : ¬ (s.form = .iteration ∧ s.left0 = true ∧ s.pc = 0))
    (he : s.pc % 2 = 0) (hx : s.prog[s.pc]? = some x) (hy : s.prog[s.pc + 1]? = some y) :
    step s = observeLeft0 (runPair x y s) := by
  have hl := (List.getElem?_eq_some_iff.mp hy).1
  have hs : stopReason s = none := by
    rcases stopReason_cases s with ⟨r, e, _⟩ | ⟨_, e, _⟩ | ⟨_, _, e, _⟩ | ⟨_, _, _, e⟩
    · simp [hf] at e
    · omega
    · exact absurd e hr
    · exact e
  have hm := (memRead_two_iff s.prog s.pc x y).mpr ⟨hx, hy⟩
  simp only [step, hs, fetchAndRun, hm]
  rw [if_neg (by omega)]

/-- The tape operation of a load: it puts the pair where it is read back. -/
theorem placePair_reads (prog : List Cell) (a : Nat) (x y : Cell) :
    (placePair prog a x y)[a]? = some x ∧ (placePair prog a x y)[a + 1]? = some y := by
  have hlen : (prog.take a ++ List.replicate (a - prog.length) 0#3).length = a := by
    simp
    omega
  unfold placePair
  constructor
  · rw [List.append_assoc, List.getElem?_append_right (by omega), hlen]
    simp
  · rw [List.append_assoc, List.getElem?_append_right (by omega), hlen]
    simp

/-- A table word that decodes is the instruction the very next step runs, from every state: its answer, with the latch
observed. -/
theorem step_withFetchWord {nbits w : Nat} {i : Instr} (h : decodeTableWord nbits w = some i) (s : State) :
    step (s.withFetchWord nbits w) = observeLeft0 (exec i (s.withFetchWord nbits w)) := by
  unfold decodeTableWord tableWordCells at h
  split at h
  · cases h
  · rename_i x y hw
    split at hw
    · simp only [Option.some.injEq] at hw
      have hr := placePair_reads s.prog (s.pc - s.pc % 2) x y
      have hs : s.withFetchWord nbits w = loadPair s x y := by simp [State.withFetchWord, hw]
      rw [hs, step_of_pair (x := x) (y := y) rfl _ _ hr.1 hr.2]
      · rcases runPair_cases x y (loadPair s x y) with ⟨j, hj, e⟩ | ⟨hres, _⟩
        · rw [hj] at h
          rw [e, Option.some.inj h]
        · simp [decode, hres] at h
      · simp [loadPair]
      · simp [loadPair]
        omega
    · cases hw

/-- No step changes the tape, so none changes whether it is well formed: `memRead` only reads it and no instruction has
a write of it. -/
theorem step_keeps_tape {s t : State} (h : step s = .next t) : t.prog = s.prog := by
  obtain ⟨-, -, -, u, rfl, ⟨-, rfl⟩ | ⟨x, y, -, -, -, ⟨-, rfl⟩ | ⟨i, -, hu⟩⟩⟩ := step_next_cases h
  · rw [latchLeft0_eq]; rfl
  · rw [latchLeft0_eq]; rfl
  · rw [latchLeft0_eq]; exact (exec_keeps_load hu).1

theorem step_keeps_memory_wf {s t : State} (h : step s = .next t) (hs : Memory.wf s.prog) : Memory.wf t.prog :=
  step_keeps_tape h ▸ hs

theorem reset_memory_wf : Memory.wf State.reset.prog := by decide

end Sys2Proof.Machine
end

