-- ==== Sys2Proof/Laws/Tape.lean ====
section
/-!
SUPPORT. What the tape's checks and the load say, in terms of indices: a tape has no reserved pair exactly when none
stands at an even index; the searches for the first offender; and when a load succeeds.
-/

namespace Sys2Proof.Machine

/-- No reserved pair means: none at any even index (30_encoding.md R83 check 3). -/
theorem noReservedPair_iff : ∀ prog : List Cell, noReservedPair prog = true ↔
    ∀ j x y, prog[2 * j]? = some x → prog[2 * j + 1]? = some y → isReservedPair x y = false
  | [] => by simp [noReservedPair]
  | [_] => by
    simp only [noReservedPair, true_iff]
    intro j x y _ hy
    simp at hy
  | a :: b :: rest => by
    simp only [noReservedPair, Bool.and_eq_true, Bool.not_eq_true', noReservedPair_iff rest]
    constructor
    · rintro ⟨hab, hrest⟩ j x y hx hy
      cases j with
      | zero => simp at hx hy; rw [← hx, ← hy]; exact hab
      | succ j =>
        rw [show 2 * (j + 1) = 2 * j + 1 + 1 by ring] at hx hy
        exact hrest j x y (by simpa using hx) (by simpa using hy)
    · intro h
      refine ⟨h 0 a b rfl rfl, fun j x y hx hy => h (j + 1) x y ?_ ?_⟩
      · rw [show 2 * (j + 1) = 2 * j + 1 + 1 by ring]; simpa using hx
      · rw [show 2 * (j + 1) + 1 = 2 * j + 1 + 1 + 1 by ring]; simpa using hy

/-- On a well-formed tape no fetched pair is reserved (30_encoding.md R79). -/
theorem Memory.wf_pair {prog : List Cell} (h : Memory.wf prog) {a : Nat} {x y : Cell} (he : a % 2 = 0)
    (hx : prog[a]? = some x) (hy : prog[a + 1]? = some y) : isReservedPair x y = false := by
  have h' : noReservedPair prog = true := by
    unfold Memory.wf tapeWellFormed at h
    simp only [Bool.and_eq_true] at h
    exact h.2
  obtain ⟨j, rfl⟩ : ∃ j, a = 2 * j := ⟨a / 2, by omega⟩
  exact (noReservedPair_iff prog).mp h' j x y hx hy

/-- A well-formed tape has even length. -/
theorem Memory.wf_even {prog : List Cell} (h : Memory.wf prog) : prog.length % 2 = 0 := by
  unfold Memory.wf tapeWellFormed at h
  simp only [Bool.and_eq_true, beq_iff_eq] at h
  exact h.1

/-- The search for an element out of range answers none exactly when all are in range. -/
theorem firstOutOfRange_eq_none_iff : ∀ (l : List Int) (i : Nat),
    firstOutOfRange l i = none ↔ ∀ v ∈ l, 0 ≤ v ∧ v ≤ 7
  | [], _ => by simp [firstOutOfRange]
  | v :: rest, i => by
    unfold firstOutOfRange
    by_cases h : cellInRange v = true
    · rw [if_pos h, firstOutOfRange_eq_none_iff rest (i + 1)]
      simp only [cellInRange, Bool.and_eq_true, decide_eq_true_eq] at h
      simp [h]
    · rw [if_neg h]
      simp only [cellInRange, Bool.and_eq_true, decide_eq_true_eq] at h
      simp [h]

/-- The search answers the first element out of range and its index. -/
theorem firstOutOfRange_eq_some : ∀ (l : List Int) (i n : Nat) (v : Int), l[n]? = some v → ¬ (0 ≤ v ∧ v ≤ 7) →
    (∀ j w, j < n → l[j]? = some w → 0 ≤ w ∧ w ≤ 7) → firstOutOfRange l i = some (i + n, v)
  | [], _, n, v, h, _, _ => by simp at h
  | a :: rest, i, 0, v, h, hv, _ => by
    obtain rfl : a = v := by simpa using h
    have hr : ¬ cellInRange a = true := by simpa [cellInRange] using hv
    simp [firstOutOfRange, hr]
  | a :: rest, i, n + 1, v, h, hv, hlt => by
    have ha : cellInRange a = true := by simpa [cellInRange] using hlt 0 a (Nat.succ_pos n) rfl
    unfold firstOutOfRange
    rw [if_pos ha, firstOutOfRange_eq_some rest (i + 1) n v (by simpa using h) hv
      (fun j w hj hw => hlt (j + 1) w (by omega) (by simpa using hw))]
    congr 2
    omega

/-- The search for a reserved pair answers none exactly when there is none. -/
theorem firstReservedPair_eq_none_iff : ∀ (l : List Cell) (i : Nat),
    firstReservedPair l i = none ↔ noReservedPair l = true
  | [], _ => by simp [firstReservedPair, noReservedPair]
  | [_], _ => by simp [firstReservedPair, noReservedPair]
  | a :: b :: rest, i => by
    unfold firstReservedPair noReservedPair
    by_cases h : isReservedPair a b = true
    · simp [h]
    · simp [h, firstReservedPair_eq_none_iff rest (i + 2)]

/-- The search answers the first reserved pair, its index and its word. -/
theorem firstReservedPair_eq_some : ∀ (l : List Cell) (i n : Nat) (x y : Cell), l[2 * n]? = some x →
    l[2 * n + 1]? = some y → isReservedPair x y = true →
    (∀ j u v, j < n → l[2 * j]? = some u → l[2 * j + 1]? = some v → isReservedPair u v = false) →
    firstReservedPair l i = some (i + 2 * n, packWord x y)
  | [], _, n, x, y, h, _, _, _ => by simp at h
  | [_], _, n, x, y, _, h, _, _ => by simp at h
  | a :: b :: rest, i, 0, x, y, hx, hy, hres, _ => by
    obtain rfl : a = x := by simpa using hx
    obtain rfl : b = y := by simpa using hy
    simp [firstReservedPair, hres]
  | a :: b :: rest, i, n + 1, x, y, hx, hy, hres, hlt => by
    have hab : isReservedPair a b = false := hlt 0 a b (Nat.succ_pos n) rfl rfl
    rw [show 2 * (n + 1) = 2 * n + 1 + 1 by ring] at hx hy
    unfold firstReservedPair
    rw [hab, if_neg (by simp), firstReservedPair_eq_some rest (i + 2) n x y (by simpa using hx) (by simpa using hy) hres]
    · congr 2
      omega
    · intro j u v hj hu hv
      refine hlt (j + 1) u v (by omega) ?_ ?_
      · rw [show 2 * (j + 1) = 2 * j + 1 + 1 by ring]; simpa using hu
      · rw [show 2 * (j + 1) = 2 * j + 1 + 1 by ring]; simpa using hv

/-- A register too wide is reported exactly when one does not fit. -/
theorem firstTooWide_eq_none_iff (x : XLen) (cfg : HostConfig) :
    firstTooWide x cfg = none ↔ x.fits cfg.initA = true ∧ x.fits cfg.initB = true ∧ x.fits cfg.initC = true := by
  unfold firstTooWide
  cases x.fits cfg.initA <;> cases x.fits cfg.initB <;> cases x.fits cfg.initC <;> simp

/-- When a configuration is accepted (70_reset_and_hazards.md R200). -/
theorem configError_eq_none_iff (x : XLen) (cfg : HostConfig) :
    configError x cfg = none ↔
      cfg.prog.length % 2 = 0 ∧ (∀ v ∈ cfg.prog, 0 ≤ v ∧ v ≤ 7) ∧ noReservedPair (tapeOf cfg.prog) = true ∧
      x.fits cfg.initA = true ∧ x.fits cfg.initB = true ∧ x.fits cfg.initC = true := by
  rw [← firstOutOfRange_eq_none_iff cfg.prog 0, ← firstReservedPair_eq_none_iff (tapeOf cfg.prog) 0,
    ← firstTooWide_eq_none_iff x cfg]
  unfold configError
  by_cases h : cfg.prog.length % 2 = 1
  · simp [h]
  · rw [if_neg h]
    have h' : cfg.prog.length % 2 = 0 := by omega
    rcases firstOutOfRange cfg.prog 0 with _ | ⟨i, v⟩
    · rcases firstReservedPair (tapeOf cfg.prog) 0 with _ | ⟨i, w⟩
      · rcases firstTooWide x cfg with _ | ⟨r, v⟩ <;> simp [h']
      · simp
    · simp

/-- A load that succeeds leaves the state of reset over the host's tape. -/
theorem load_eq_ok_iff (x : XLen) (f : Form) (cfg : HostConfig) (s : State) :
    load x f cfg = .ok s ↔ configError x cfg = none ∧
      s = State.resetWith cfg.initA cfg.initB cfg.initC (tapeOf cfg.prog) f := by
  unfold load
  cases configError x cfg with
  | none => simp [eq_comm]
  | some e => simp

/-- A host tape whose elements are in range is kept cell for cell. -/
theorem tapeOf_toNat {prog : List Int} (h : ∀ v ∈ prog, 0 ≤ v ∧ v ≤ 7) :
    (tapeOf prog).map (fun c => (c.toNat : Int)) = prog := by
  unfold tapeOf
  rw [List.map_map, List.map_congr_left (g := id), List.map_id]
  intro v hv
  have := h v hv
  simp [cellOf, BitVec.toNat_ofInt]
  omega

end Sys2Proof.Machine
end

