-- ==== Sys2Proof/Tests/Slice0.lean ====
section
/-!
SUPPORT. The model's own tests: ill-formed terms for each check, words written out from the encoding, one step for each
instruction with the results of spec/95_test_vectors.md, the load and the transactions on small configurations, and for
each statement with hypotheses a witness that meets them.
-/

namespace Sys2Proof.Tests

open Sys2Proof Sys2Proof.Machine

/-- The next state of an answer, if it is one. -/
def nextOf : Result → Option State
  | .next t => some t
  | _ => none

/-- The stop of an answer, if it is one. -/
def stopOf : Result → Option Fault
  | .fault f => some f
  | _ => none

/-- A loaded machine of the full run. -/
def demo (a b c : Int) (prog : List Cell) : State := State.resetWith a b c prog .run

/-- A loaded machine of the iteration form. -/
def demoIteration (a b c : Int) (prog : List Cell) : State := State.resetWith a b c prog .iteration

/-- The tape of the source's canonical example, `[0,1,5,4,3,0]` (95_test_vectors.md section 1.1). -/
def canonical : List Cell := [0#3, 1#3, 5#3, 4#3, 3#3, 0#3]

/-! ## Well-formedness: an ill-formed term for each check (95_test_vectors.md section 2.5) -/

theorem test_wellFormed_refuses_reserved_instr : (Instr.adv 7#3).wellFormed = false := by decide
theorem test_wellFormed_accepts_seven_elsewhere :
    (Instr.bxl 7#3).wellFormed && (Instr.jnz 7#3).wellFormed && (Instr.bxc 7#3).wellFormed = true := by decide
theorem test_tape_check1_refuses_odd_length : hostTapeWellFormed [0, 1, 5] = false := by decide
theorem test_tape_check2_refuses_cell_eight : hostTapeWellFormed [0, 1, 8, 0] = false := by decide
theorem test_tape_check2_refuses_negative_cell : hostTapeWellFormed [0, -1] = false := by decide
theorem test_tape_check3_refuses_reserved_pair : hostTapeWellFormed [1, 7, 3, 7, 4, 7, 2, 7] = false := by decide
theorem test_tape_check3_looks_at_unreachable_pairs : tapeWellFormed [3#3, 4#3, 5#3, 7#3] = false := by decide
theorem test_tape_accepts_canonical : tapeWellFormed canonical && tapeWellFormed [] = true := by decide
theorem test_xlen_refuses_too_wide : (XLen.finite 64 (by decide)).fits (2 ^ 63) = false := by decide
theorem test_xlen_accepts_both_ends :
    (XLen.finite 64 (by decide)).fits (2 ^ 63 - 1) && (XLen.finite 64 (by decide)).fits (-2 ^ 63) = true := by decide

/-! ## Decoding: words written out bit by bit from 30_encoding.md R77 and 95_test_vectors.md section 4 -/

theorem test_decode_adv : decodeTableWord 8 0b000001 = some (.adv 1#3) := by decide
theorem test_decode_bxl : decodeTableWord 8 0b001111 = some (.bxl 7#3) := by decide
theorem test_decode_bst : decodeTableWord 8 0b010110 = some (.bst 6#3) := by decide
theorem test_decode_jnz : decodeTableWord 8 0b011000 = some (.jnz 0#3) := by decide
theorem test_decode_bxc : decodeTableWord 8 0b100111 = some (.bxc 7#3) := by decide
theorem test_decode_out : decodeTableWord 8 0b101100 = some (.out 4#3) := by decide
theorem test_decode_bdv : decodeTableWord 8 0b110101 = some (.bdv 5#3) := by decide
theorem test_decode_cdv : decodeTableWord 8 0b111110 = some (.cdv 6#3) := by decide
theorem test_decode_reserved_words :
    [0o07, 0o27, 0o57, 0o67, 0o77].map (decodeTableWord 8) = [none, none, none, none, none] := by decide
theorem test_decode_no_seventh_bit : decodeTableWord 8 0b1000001 = none := by decide
theorem test_decode_six_bits_given : decodeTableWord 6 0o54 = some (.out 4#3) := by decide
theorem test_encode_opcode_first : encode (.out 4#3) = (5#3, 4#3) ∧ encodeWord (.out 4#3) = 44 := by decide

/-! ## One step of each instruction (95_test_vectors.md sections 2.1 to 2.4) -/

/-- DV21: a negative dividend truncates toward zero. -/
theorem test_adv_truncates_toward_zero :
    (nextOf (exec (.adv 1#3) (demo (-7) 0 0 []))).map (fun t => (t.A, t.pc)) = some (-3, 2) := by decide
/-- DV18: an exponent far above any width. -/
theorem test_adv_huge_exponent :
    (nextOf (exec (.adv 5#3) (demo 1 200 0 []))).map (fun t => (t.A, t.B)) = some (0, 200) := by decide
/-- DV13: the old `B` is the exponent, then overwritten. -/
theorem test_bdv_reads_before_write :
    (nextOf (exec (.bdv 5#3) (demo 1000 3 0 []))).map (fun t => (t.A, t.B)) = some (1000, 125) := by decide
/-- DV25: the edge of a 64-bit width. -/
theorem test_bdv_width_edge :
    (nextOf (exec (.bdv 5#3) (demo (-2 ^ 63) 63 0 []))).map (fun t => t.B) = some (-1) := by decide
/-- DV16: `floor(1543 / 64) = 24`. -/
theorem test_cdv_register_exponent :
    (nextOf (exec (.cdv 5#3) (demo 1543 6 12345 []))).map (fun t => (t.B, t.C)) = some (6, 24) := by decide
/-- DV28: a negative `A` as its own exponent faults and writes no register. -/
theorem test_cdv_negative_exponent :
    (nextOf (exec (.cdv 4#3) (demo (-4) 0 0 []))).map (fun t => (t.A, t.C, t.pc, t.fault)) =
      some (-4, 0, 0, some ⟨.negativeExponent, 0, -4⟩) := by decide
/-- X2: operand 7 is a legal literal. -/
theorem test_bxl_seven : (nextOf (exec (.bxl 7#3) (demo 0 29 0 []))).map (fun t => t.B) = some 26 := by decide
/-- X7: two's complement. -/
theorem test_bxl_negative : (nextOf (exec (.bxl 7#3) (demo 0 (-1) 0 []))).map (fun t => t.B) = some (-8) := by decide
/-- S8: a negative source gives a non-negative result. -/
theorem test_bst_negative_source :
    (nextOf (exec (.bst 6#3) (demo 0 0 (-3) []))).map (fun t => (t.B, t.C)) = some (5, -3) := by decide
/-- S12: the source's low three bits at the edge of a width. -/
theorem test_bst_width_edge : (nextOf (exec (.bst 4#3) (demo (-2 ^ 63) 5 0 []))).map (fun t => t.B) = some 0 := by decide
/-- CV2: the operand is ignored, 7 included. -/
theorem test_bxc_ignores_operand :
    (nextOf (exec (.bxc 7#3) (demo 0 2024 43690 []))).map (fun t => (t.B, t.C)) = some (44354, 43690) := by decide
/-- CV10: no overflow. -/
theorem test_bxc_width_edge :
    (nextOf (exec (.bxc 0#3) (demo 0 (2 ^ 63 - 1) (-2 ^ 63) []))).map (fun t => t.B) = some (-1) := by decide
/-- J3: a negative `A` is non-zero, and the jump has no `+2`. -/
theorem test_jnz_taken_negative :
    (nextOf (step ((demo (-5) 0 0 canonical).setPc 4))).map (fun t => (t.A, t.pc)) = some (-5, 0) := by decide
/-- J2: falls through. -/
theorem test_jnz_not_taken :
    (nextOf (step ((demo 0 0 0 canonical).setPc 4))).map (fun t => t.pc) = some 6 := by decide
/-- O6: bits above bit 2 set. -/
theorem test_out_large : (nextOf (exec (.out 6#3) (demo 0 0 (2 ^ 40 + 5) []))).map (fun t => t.out) = some [5#3] := by decide
/-- O8: `-10 = 8·(-2) + 6`. -/
theorem test_out_negative : (nextOf (exec (.out 4#3) (demo (-10) 0 0 []))).map (fun t => t.out) = some [6#3] := by decide

/-! ## Fetch, halting, faults, the latch, the host's word -/

/-- J9, the second step: an odd `pc` on the tape. -/
theorem test_step_misaligned :
    (nextOf (step ((demo 1 0 0 [3#3, 3#3, 5#3, 4#3, 5#3, 5#3]).setPc 3))).map (fun t => (t.pc, t.fault)) =
      some (3, some ⟨.misalignedFetch, 3, 3⟩) := by decide
/-- J8: an odd `pc` past the end halts. -/
theorem test_step_halts_at_odd_pc : stopOf (step ((demo 1 0 0 [3#3, 7#3, 5#3, 1#3]).setPc 7)) = some .halted := by decide
/-- The table of section 2.0, row 7: a reserved word stepped anyway. -/
theorem test_step_reserved :
    (nextOf (step (demo 100 13 2 [5#3, 7#3]))).map (fun t => (t.out, t.pc, t.fault)) =
      some ([], 0, some ⟨.reservedCombo, 0, 0o57⟩) := by decide
/-- A tape of odd length, which no load accepts, has half an instruction at its end. -/
theorem test_step_half_instruction : stopOf (step (demo 0 0 0 [1#3])) = some (.fetchPastEnd 0) := by decide
/-- A taken `jnz 0` at index 0 is no return: the `pc` has not left 0 (45_iteration_mode.md R152). -/
theorem test_iteration_latch_not_set_at_zero :
    (nextOf (step (demoIteration 1 0 0 [3#3, 0#3]))).map (fun t => (t.pc, t.left0)) = some (0, false) := by decide
/-- The latch is set once the `pc` has left 0. -/
theorem test_iteration_latch_set :
    (nextOf (step (demoIteration 729 0 0 canonical))).map (fun t => (t.pc, t.left0)) = some (2, true) := by decide
/-- Back at index 0 an iteration is over. -/
theorem test_iteration_returned : stopOf (step ((demoIteration 364 0 0 canonical).setLeft0 true)) = some .returned := by decide
/-- A table word runs as the first instruction after reset. -/
theorem test_withFetchWord_runs_first :
    (nextOf (step (State.reset.withFetchWord 8 0o53))).map (fun t => (t.out, t.pc)) = some ([3#3], 2) := by decide
/-- With nothing loaded the machine after reset is halted (H1). -/
theorem test_reset_is_halted : stopOf (step State.reset) = some .halted := by decide

/-! ## Load and transactions (95_test_vectors.md sections 2.5 and 2.6) -/

/-- H2: one step. -/
theorem test_run_one_step : hostRun .unbounded 1 ⟨0, 0, 9, [5, 6]⟩ = .output [1#3] := by decide
/-- E1 and E6: an odd length wins over a cell out of range. -/
theorem test_run_odd_length_first : hostRun .unbounded 9 ⟨0, 0, 0, [9, 1, 5]⟩ = .configError (.oddLength 3) := by decide
/-- E2. -/
theorem test_run_cell_out_of_range :
    hostRun .unbounded 9 ⟨0, 0, 0, [0, 1, 8, 0]⟩ = .configError (.cellOutOfRange 2 8) := by decide
/-- E4: the three earlier 7s are legal. -/
theorem test_run_reserved_operand :
    hostRun .unbounded 9 ⟨0, 0, 0, [1, 7, 3, 7, 4, 7, 2, 7]⟩ = .configError (.reservedComboOperand 6 0o27) := by decide
/-- E7. -/
theorem test_run_too_wide :
    hostRun (.finite 64 (by decide)) 9 ⟨2 ^ 63, 0, 0, []⟩ = .configError (.registerWidthExceeded 0 (2 ^ 63)) := by decide
/-- I2: the last iteration ends by halting. -/
theorem test_iteration_halted :
    hostRunIteration .unbounded 3 ⟨1, 0, 0, [0, 1, 5, 4, 3, 0]⟩ = .result ⟨.halted, [0#3], 0⟩ := by decide
/-- I1: an iteration that comes back. -/
theorem test_iteration_result :
    hostRunIteration .unbounded 3 ⟨729, 0, 0, [0, 1, 5, 4, 3, 0]⟩ = .result ⟨.returned, [4#3], 364⟩ := by decide
/-- I5: two cells, no digit. -/
theorem test_iteration_no_digit : iterationDigit ⟨.returned, [1#3, 1#3], 1⟩ = none := by decide
/-- Running out of fuel is neither a halt nor a fault (J11). -/
theorem test_run_out_of_fuel : hostRun .unbounded 2 ⟨1, 0, 0, [3, 0]⟩ = .noAnswer := by decide
/-- Section 5, step 2: 24 extends 3 for the target 3. -/
theorem test_solver_retains :
    tryCandidate .unbounded 3 0 0 [0, 3, 5, 4, 3, 0] 3#3 3 24 = .ok true := by decide
/-- 30_encoding.md R85 and 95_test_vectors.md section 4. -/
theorem test_listing :
    disassemble [0#3, 1#3, 5#3, 4#3, 3#3, 0#3, 7#3, 7#3] = ["adv 1", "out A", "jnz 0", "cdv <reserved 7>"] := by decide
/-- `bxc` without its operand stands for operand 0. -/
theorem test_assemble_bxc : assembleLine "bxc" none = some (4#3, 0#3) := by decide

/-! ## Witnesses: each statement's hypotheses are met together -/

theorem witness_DecodeEncodeInverse :
    decode 7#3 6#3 = .ok (.cdv 6#3) ∧ (Instr.cdv 6#3).wellFormed = true ∧ encode (.cdv 6#3) = (7#3, 6#3) := ⟨rfl, rfl, rfl⟩
theorem witness_ReservedWordsRefused :
    decode 0#3 7#3 = .error (.reservedCombo 7) ∧ decode 7#3 7#3 = .error (.reservedCombo 63) := ⟨rfl, rfl⟩
theorem witness_ListingRoundTrip : (Instr.out 6#3).wellFormed = true ∧ (Instr.out 7#3).wellFormed = false := by decide
theorem witness_StepRunsDecodedInstruction :
    (demo 5 0 0 canonical).Running ∧ ¬ (demo 5 0 0 canonical).Returned ∧ (demo 5 0 0 canonical).pc % 2 = 0 ∧
    (demo 5 0 0 canonical).prog[0]? = some 0#3 ∧ (demo 5 0 0 canonical).prog[0 + 1]? = some 1#3 ∧
    decode 0#3 1#3 = .ok (.adv 1#3) ∧
    (demoIteration 5 0 0 canonical).Running ∧ ¬ (demoIteration 5 0 0 canonical).Returned :=
  ⟨by decide, by decide, rfl, rfl, rfl, rfl, by decide, by decide⟩
theorem witness_StopsExactlyWhenNotRunning :
    (demo 5 0 0 canonical).prog.length % 2 = 0 ∧ (demo 5 0 0 canonical).Running ∧
    ((demo 5 0 0 canonical).setPc 6).Halted ∧ ¬ ((demo 5 0 0 canonical).setPc 5).Halted ∧
    ((demoIteration 5 0 0 canonical).setLeft0 true).Running ∧ ((demoIteration 5 0 0 canonical).setLeft0 true).Returned ∧
    ((demo 5 0 0 canonical).setFault ⟨.misalignedFetch, 1, 1⟩).Faulted := by decide
theorem witness_StepIsPseudocode :
    (demo 5 0 0 [7#3, 6#3]).prog.length % 2 = 0 ∧ (demo 5 0 0 [7#3, 6#3]).Running ∧ ¬ (demo 5 0 0 [7#3, 6#3]).Returned ∧
    ((demo 5 0 0 [7#3, 6#3]).setPc 1).Running ∧ (demoIteration 5 0 0 [3#3, 2#3, 0#3, 7#3]).Running ∧
    ¬ (demoIteration 5 0 0 [3#3, 2#3, 0#3, 7#3]).Returned := by decide
theorem witness_FaultedHasNoStep :
    ((demo 1 0 0 canonical).setFault ⟨.misalignedFetch, 1, 1⟩).fault = some ⟨.misalignedFetch, 1, 1⟩ := rfl
theorem witness_HaltTestBeforeAlignment :
    ((demo 1 0 0 canonical).setPc 6).fault = none ∧ ((demo 1 0 0 canonical).setPc 6).prog.length ≤ 6 ∧
    ((demo 1 0 0 canonical).setPc 7).prog.length ≤ ((demo 1 0 0 canonical).setPc 7).pc := by decide
theorem witness_MisalignedFetchTaken :
    ((demo 1 0 0 canonical).setPc 5).Running ∧ ((demo 1 0 0 canonical).setPc 5).pc % 2 = 1 ∧
    ((demo 1 0 0 canonical).setPc 1).Running := by decide
theorem witness_ReservedComboTaken :
    (demo 1 0 0 [0#3, 7#3]).Running ∧ ¬ (demo 1 0 0 [0#3, 7#3]).Returned ∧ (demo 1 0 0 [0#3, 7#3]).pc % 2 = 0 ∧
    (demo 1 0 0 [0#3, 7#3]).prog[0]? = some 0#3 ∧ (demo 1 0 0 [0#3, 7#3]).prog[0 + 1]? = some 7#3 ∧
    (demo 1 0 0 [7#3, 7#3]).prog[0]? = some 7#3 := by decide
theorem witness_NegativeExponentTaken :
    combo (demo (-1) 0 0 []) 4#3 = some (-1) ∧ combo (demo 0 (-1) 0 []) 5#3 = some (-1) ∧
    combo (demo 0 0 (-1) []) 6#3 = some (-1) ∧ (-1 : Int) < 0 := by decide
theorem witness_FaultsArePrecise :
    step (demo (-1) 2 3 [0#3, 4#3]) = .next ((demo (-1) 2 3 [0#3, 4#3]).setFault ⟨.negativeExponent, 0, -1⟩) := rfl
theorem witness_AdvDividesIntoA :
    combo (demo 0 0 0 []) 4#3 = some 0 ∧ combo (demo 5 0 0 []) 3#3 = some 3 ∧ (0 : Int) ≤ (demo 0 0 0 []).A ∧
    (demo 729 0 0 []).A = 729 := by decide
theorem witness_BdvDividesIntoB :
    combo (demo 1000 3 0 []) 5#3 = some 3 ∧ (0 : Int) ≤ (demo 0 0 0 []).B ∧ (demo 1000 3 0 []).A = 1000 ∧
    (demo 1000 3 0 []).B = 3 := by decide
theorem witness_CdvDividesIntoC :
    combo (demo 64 0 2 []) 6#3 = some 2 ∧ (0 : Int) ≤ (demo 0 0 0 []).C ∧ (demo 64 0 2 []).A = 64 ∧
    (demo 64 0 2 []).C = 2 := by decide
theorem witness_BxlXorsLiteral :
    (XLen.finite 64 (by decide)).fits (2 ^ 63 - 1) = true ∧ (XLen.finite 64 (by decide)).fits (-2 ^ 63) = true ∧
    (demo 0 29 0 []).B = 29 := by decide
theorem witness_BstStoresModuloEight :
    (6#3 : Cell) ≠ 7#3 ∧ combo (demo 0 0 (-3) []) 6#3 = some (-3) ∧ (3#3 : Cell).toNat ≤ 3 ∧ (demo 0 0 (-3) []).C = -3 ∧
    (demo (-1) 0 0 []).A = -1 ∧ (demo 2024 0 0 []).A = 2024 ∧ (demo 0 0 9 []).C = 9 := by decide
theorem witness_BxcXorsRegisters :
    (0 : Int) ≤ 0 ∧ (XLen.finite 64 (by decide)).fits (2 ^ 63 - 1) = true ∧
    (XLen.finite 64 (by decide)).fits (-2 ^ 63) = true ∧ (demo 0 2024 43690 []).B = 2024 ∧
    (demo 0 2024 43690 []).C = 43690 := by decide
theorem witness_JnzJumpsWhenANonzero :
    (demo (-1) 0 0 []).A ≠ 0 ∧ (demo 0 0 0 []).A = 0 ∧
    exec (.jnz 7#3) (demo (-1) 0 0 []) = .next ((demo (-1) 0 0 []).setPc 7) := ⟨by decide, rfl, rfl⟩
theorem witness_OutAppendsModuloEight :
    (6#3 : Cell) ≠ 7#3 ∧ combo (demo 0 0 (-8) []) 6#3 = some (-8) ∧ (0#3 : Cell).toNat ≤ 3 ∧
    exec (.out 6#3) (demo 0 0 (-8) []) = .next ((demo 0 0 (-8) []).outAppend 0#3).advance ∧
    (demo (2 ^ 40 + 5) 0 0 []).A = 2 ^ 40 + 5 ∧ (demo (-1) 0 0 []).A = -1 ∧ (demo (-10) 0 0 []).A = -10 ∧
    (demo 364 0 0 []).A = 364 := ⟨by decide, rfl, by decide, rfl, rfl, rfl, rfl, rfl⟩
theorem witness_InstructionFrame :
    exec (.bst 4#3) (demo 13 0 0 canonical) = .next ((demo 13 0 0 canonical).setB 5).advance ∧
    (Instr.bst 4#3).opcode ≠ .adv ∧ (Instr.jnz 0#3).opcode ≠ .bxl ∧ (Instr.jnz 0#3).opcode ≠ .bst ∧
    (Instr.jnz 0#3).opcode ≠ .bxc ∧ (Instr.jnz 0#3).opcode ≠ .bdv ∧ (Instr.jnz 0#3).opcode = .jnz :=
  ⟨rfl, by decide, by decide, by decide, by decide, by decide, rfl⟩
theorem witness_PcAdvancesByTwoOrJumps :
    load .unbounded .run ⟨1, 2, 3, [3, 7]⟩ = .ok (demo 1 2 3 [3#3, 7#3]) ∧ (demo 1 2 3 [3#3, 7#3]).fault = none ∧
    exec (.jnz 7#3) (demo 1 2 3 [3#3, 7#3]) = .next ((demo 1 2 3 [3#3, 7#3]).setPc 7) ∧ (demo 1 2 3 [3#3, 7#3]).A ≠ 0 ∧
    exec (.jnz 7#3) (demo 0 2 3 [3#3, 7#3]) = .next (demo 0 2 3 [3#3, 7#3]).advance ∧ (demo 0 2 3 [3#3, 7#3]).A = 0 ∧
    exec (.bxl 0#3) (demo 1 2 3 []) = .next (demo 1 2 3 []).advance ∧ (Instr.bxl 0#3).opcode ≠ .jnz :=
  ⟨rfl, rfl, rfl, by decide, rfl, rfl, rfl, by decide⟩
theorem witness_ComboOperandTable : (Instr.out 7#3).opcode.format = .combo ∧ (Instr.out 7#3).operand = 7#3 := by decide
theorem witness_TdivIsTruncatedQuotient : (-1 : Int).natAbs < 2 ^ 1 ∧ (0 : Int) ≤ 0 := by decide
theorem witness_TdivLaws :
    tdiv (-8) 3 ≠ 0 ∧ (-1 : Int) < 0 ∧ (XLen.finite 64 (by decide)).fits (-2 ^ 63) = true ∧ 64 ≤ 64 := by decide
theorem witness_Mod8IsLowThreeBits : (0 : Int) ≤ 7 ∧ (7 : Int) ≤ 7 ∧ (8 : Int) ∣ -1 - 7 ∧ 3 ≤ 3 := by decide
theorem witness_XorIsBitwise : bitAt 6 0 = false ∧ bitAt 6 1 = true ∧ bitAt (-1) 200 = true := by decide
theorem witness_XorAgreesWithFiniteWidth :
    0 < 1 ∧ -(2 : Int) ^ (1 - 1) ≤ -1 ∧ (-1 : Int) < 2 ^ (1 - 1) ∧ -(2 : Int) ^ (1 - 1) ≤ 0 ∧ (0 : Int) < 2 ^ (1 - 1) ∧
    -(2 : Int) ^ (64 - 1) ≤ -2 ^ 63 ∧ (2 ^ 63 - 1 : Int) < 2 ^ (64 - 1) := by decide

/-- A step of a loaded machine that meets the invariant and appends a cell. -/
def outStep : State := demo 13 0 0 [5#3, 4#3]

theorem outStep_next : step outStep = .next (outStep.outAppend 5#3).advance := rfl

theorem outStep_inv : outStep.Inv :=
  ⟨by decide, by decide, fun _ h => (by cases h), fun h => (by cases h)⟩

/-- A faulted machine that meets the invariant. -/
theorem faulted_inv : ((demo (-1) 0 0 [0#3, 4#3]).setFault ⟨.negativeExponent, 0, -1⟩).Inv :=
  ⟨by decide, by decide, fun r h => by cases h; exact ⟨rfl, by decide, rfl, by decide, .inl rfl⟩, fun h => by cases h⟩

theorem witness_StepKeepsInvariant : outStep.Inv ∧ step outStep = .next (outStep.outAppend 5#3).advance :=
  ⟨outStep_inv, outStep_next⟩
theorem witness_LoadMeetsInvariant :
    load .unbounded .iteration ⟨13, 0, 0, [5, 4]⟩ = .ok (demoIteration 13 0 0 [5#3, 4#3]) := rfl
theorem witness_NonNegativityPreserved :
    RegsNonNeg outStep ∧ step outStep = .next (outStep.outAppend 5#3).advance := ⟨by decide, outStep_next⟩
theorem witness_WidthClosure :
    RegsFit (.finite 64 (by decide)) (demo (-2 ^ 63) (2 ^ 63 - 1) 0 [1#3, 7#3]) ∧
    step (demo (-2 ^ 63) (2 ^ 63 - 1) 0 [1#3, 7#3]) =
      .next ((demo (-2 ^ 63) (2 ^ 63 - 1) 0 [1#3, 7#3]).setB (2 ^ 63 - 8)).advance := ⟨by decide, rfl⟩
theorem witness_TapeNeverChanges :
    step outStep = .next (outStep.outAppend 5#3).advance ∧ load .unbounded .run ⟨13, 0, 0, [5, 4]⟩ = .ok outStep ∧
    runUntilStop 1 outStep = .stopped .halted (outStep.outAppend 5#3).advance ∧
    runUntilStop 0 outStep = .outOfFuel outStep := ⟨outStep_next, rfl, rfl, rfl⟩
theorem witness_OutputIsAppendOnlyAndUnread :
    load .unbounded .run ⟨13, 0, 0, [5, 4]⟩ = .ok outStep ∧ step outStep = .next (outStep.outAppend 5#3).advance ∧
    ([5#3] : List Cell) ≠ [] := ⟨rfl, outStep_next, by decide⟩
theorem witness_WellFormedTapeHasNoReservedFault :
    Memory.wf [0#3, 4#3] ∧ step (demo (-1) 0 0 [0#3, 4#3]) =
      .next ((demo (-1) 0 0 [0#3, 4#3]).setFault ⟨.negativeExponent, 0, -1⟩) := ⟨by decide, rfl⟩
theorem witness_LatchFollowsPc :
    step (demoIteration 0 0 0 [1#3, 0#3]) = .next ((demoIteration 0 0 0 [1#3, 0#3]).setLeft0 true).advance ∧
    (demoIteration 0 0 0 [1#3, 0#3]).form = .iteration ∧ step outStep = .next (outStep.outAppend 5#3).advance ∧
    outStep.form = .run := ⟨rfl, rfl, outStep_next, rfl⟩
theorem witness_LoadAcceptsExactlyWellFormed :
    load (.finite 64 (by decide)) .run ⟨2 ^ 63 - 1, -2 ^ 63, 0, [3, 7]⟩ = .ok (demo (2 ^ 63 - 1) (-2 ^ 63) 0 [3#3, 7#3]) ∧
    load .unbounded .run ⟨1, 2, 3, []⟩ = .ok (demo 1 2 3 []) := ⟨rfl, rfl⟩
theorem witness_OddLengthRefused : ([0, 1, 5] : List Int).length % 2 = 1 := by decide
theorem witness_CellOutOfRangeRefused :
    ([0, 1, 8, 0] : List Int).length % 2 = 0 ∧ ([0, 1, 8, 0] : List Int)[2]? = some 8 ∧ ¬ ((0 : Int) ≤ 8 ∧ (8 : Int) ≤ 7) ∧
    (∀ j w, j < 2 → ([0, 1, 8, 0] : List Int)[j]? = some w → 0 ≤ w ∧ w ≤ 7) := by
  refine ⟨by decide, rfl, by decide, fun j w hj hw => ?_⟩
  match j, hj with
  | 0, _ => cases hw; decide
  | 1, _ => cases hw; decide
theorem witness_ReservedComboOperandRefused :
    ([1, 7, 2, 7] : List Int).length % 2 = 0 ∧ (∀ v ∈ ([1, 7, 2, 7] : List Int), 0 ≤ v ∧ v ≤ 7) ∧
    ([1, 7, 2, 7] : List Int)[2 * 1]? = some 2 ∧ ([1, 7, 2, 7] : List Int)[2 * 1 + 1]? = some 7 ∧
    (∀ j' o', j' < 1 → ([1, 7, 2, 7] : List Int)[2 * j']? = some o' → ([1, 7, 2, 7] : List Int)[2 * j' + 1]? = some 7 →
      ¬ (o' = 0 ∨ o' = 2 ∨ o' = 5 ∨ o' = 6 ∨ o' = 7)) := by
  refine ⟨by decide, by decide, rfl, rfl, fun j o hj ho _ => ?_⟩
  match j, hj with
  | 0, _ => cases ho; decide
theorem witness_RegisterWidthExceededRefused :
    hostTapeWellFormed [5, 4] = true ∧ (XLen.finite 64 (by decide)).fits (2 ^ 63) = false ∧
    (XLen.finite 64 (by decide)).fits (-2 ^ 63 - 1) = false ∧ (XLen.finite 64 (by decide)).fits (2 ^ 63 - 1) = true := by
  decide
theorem witness_FuelChangesNoResult :
    runUntilStop 1 outStep = .stopped .halted (outStep.outAppend 5#3).advance ∧ 1 ≤ 2 := ⟨rfl, by decide⟩
theorem witness_RunAnswersHaltedOutput :
    hostRun .unbounded 1 ⟨13, 0, 0, [5, 4]⟩ = .output [5#3] ∧ load .unbounded .run ⟨13, 0, 0, [5, 4]⟩ = .ok outStep ∧
    runUntilStop 1 outStep = .stopped .halted (outStep.outAppend 5#3).advance ∧
    (outStep.outAppend 5#3).advance.Halted := ⟨rfl, rfl, rfl, by decide⟩
theorem witness_StraightLineRunHalts :
    load .unbounded .run ⟨13, 0, 0, [5, 4]⟩ = .ok outStep ∧ RegsNonNeg outStep ∧ noJnzPair outStep.prog = true :=
  ⟨rfl, by decide, by decide⟩
/-- A run past a `jnz` that is not taken, with a negative register: `out B`, `jnz 0`. -/
def untaken : State := demo 0 (-1) 0 [5#3, 5#3, 3#3, 0#3]

theorem untaken_halts (n : Nat) :
    runUntilStop (n + 3) untaken = .stopped .halted (untaken.outAppend 7#3).advance.advance := rfl

theorem witness_UntakenJumpsRunHalts :
    load .unbounded .run ⟨0, -1, 0, [5, 5, 3, 0]⟩ = .ok untaken ∧
    (∀ n t, runUntilStop n untaken = .outOfFuel t → t.prog[t.pc]? = some 3#3 → t.A = 0) ∧
    (∀ n r t, runUntilStop n untaken ≠ .stopped (.faulted r) t) := by
  refine ⟨rfl, fun n t h _ => ?_, fun n r t h => ?_⟩
  · match n, h with
    | 0, h => cases h; rfl
    | 1, h => cases h; rfl
    | 2, h => cases h
    | n + 3, h => rw [untaken_halts] at h; cases h
  · match n, h with
    | 0, h => cases h
    | 1, h => cases h
    | 2, h => cases h
    | n + 3, h => rw [untaken_halts] at h; cases h
theorem witness_JnzToItselfNeverStops :
    (demo 1 0 0 [3#3, 0#3]).fault = none ∧ (demo 1 0 0 [3#3, 0#3]).form = .run ∧ (demo 1 0 0 [3#3, 0#3]).A ≠ 0 ∧
    (demo 1 0 0 [3#3, 0#3]).pc = (0#3 : Cell).toNat ∧ (demo 1 0 0 [3#3, 0#3]).pc % 2 = 0 ∧
    (demo 1 0 0 [3#3, 0#3]).prog[0]? = some 3#3 ∧ (demo 1 0 0 [3#3, 0#3]).prog[0 + 1]? = some 0#3 := by decide
theorem witness_DigitDefinedForOneCell : iterationDigit ⟨.halted, [0#3], 0⟩ = some 0#3 := rfl
theorem witness_IterationAnswersAtFirstStop :
    hostRunIteration .unbounded 1 ⟨13, 0, 0, [5, 4]⟩ = .result ⟨.halted, [5#3], 13⟩ ∧
    load .unbounded .iteration ⟨13, 0, 0, [5, 4]⟩ = .ok (demoIteration 13 0 0 [5#3, 4#3]) ∧
    runUntilStop 1 (demoIteration 13 0 0 [5#3, 4#3]) =
      .stopped .halted (((demoIteration 13 0 0 [5#3, 4#3]).outAppend 5#3).advance.setLeft0 true) := ⟨rfl, rfl, rfl⟩
theorem witness_FrontierIsTheRetainedSet :
    nextFrontier .unbounded 1 0 0 [5, 0] 0#3 [0] = .ok [0] ∧ ([0] : List Int).Nodup := ⟨rfl, by decide⟩
theorem witness_SolverAnswerIsQuine : findMinimalA .unbounded 0 0 0 [] = .found 0 := rfl

end Sys2Proof.Tests
end

section
/-!
SUPPORT AND PROOFS. The named arithmetic operations of 00_scope.md R14 to R16: `tdiv` as the truncated quotient, `mod8`
as the remainder and the low three bits, `xorInt` bit by bit and against the words of a finite width.
-/

namespace Sys2Proof.Machine

/-! ## The truncated quotient (R14) -/

theorem tdiv_eq_sign_mul (a : Int) (k : Nat) : tdiv a k = a.sign * ((a.natAbs / 2 ^ k : Nat) : Int) := by
  rw [tdiv, Nat.shiftRight_eq_div_pow]

theorem tdiv_eq_zero_of_natAbs_lt {a : Int} {k : Nat} (h : a.natAbs < 2 ^ k) : tdiv a k = 0 := by
  rw [tdiv_eq_sign_mul, Nat.div_eq_of_lt h, Int.natCast_zero, Int.mul_zero]

theorem tdiv_eq_shiftRight {a : Int} (h : 0 ≤ a) (k : Nat) : tdiv a k = a >>> k := by
  obtain ⟨m, rfl⟩ := Int.eq_ofNat_of_zero_le h
  rw [tdiv_ofNat, Int.shiftRight_eq_div_pow, Int.natCast_ediv]

/-- Settles O26: the shift of the magnitude is its division by `2 ^ k`. -/
theorem tdivIsTruncatedQuotient : Obligations.TdivIsTruncatedQuotient :=
  ⟨tdiv_eq_sign_mul, fun _ _ h => tdiv_eq_zero_of_natAbs_lt h, fun _ k h => tdiv_eq_shiftRight h k, by decide⟩

/-! ## The remainder modulo 8 (R15) -/

theorem mod8_eq_iff (v r : Int) : mod8 v = r ↔ 0 ≤ r ∧ r ≤ 7 ∧ 8 ∣ v - r := by
  rw [mod8_eq_emod]
  omega

/-- Reducing by `2 ^ n` first does not change the remainder modulo 8, since 8 divides `2 ^ n` once `3 ≤ n`. -/
theorem mod8_eq_extractLsb' (v : Int) {n : Nat} (h : 3 ≤ n) :
    mod8 v = (((BitVec.ofInt n v).extractLsb' 0 3).toNat : Int) := by
  have hdvd : (8 : Int) ∣ ((2 ^ n : Nat) : Int) := by exact_mod_cast Nat.pow_dvd_pow 2 h
  have hpos : ((2 ^ n : Nat) : Int) ≠ 0 := by exact_mod_cast (Nat.two_pow_pos n).ne'
  calc mod8 v = v % ((2 ^ n : Nat) : Int) % 8 := by rw [mod8_eq_emod, Int.emod_emod_of_dvd v hdvd]
    _ = (((v % ((2 ^ n : Nat) : Int)).toNat % 2 ^ 3 : Nat) : Int) := by
      rw [Int.natCast_emod, Int.toNat_of_nonneg (Int.emod_nonneg v hpos)]
      rfl
    _ = _ := by rw [BitVec.extractLsb'_toNat, BitVec.toNat_ofInt, Nat.shiftRight_zero]

/-- Settles O28: `mod8` is the Euclidean remainder, and 8 divides the modulus of every width from 3 on. -/
theorem mod8IsLowThreeBits : Obligations.Mod8IsLowThreeBits :=
  ⟨mod8_eq_iff, fun _ => rfl, fun v _ h => mod8_eq_extractLsb' v h, by decide⟩

/-! ## Exclusive-or bit by bit (R16, decision D2) -/

/-- The model's exclusive-or is the library's. -/
theorem xorInt_eq_xor (a b : Int) : xorInt a b = Int.xor a b := by
  cases a <;> cases b <;> rfl

/-- The parity of `floor(v / 2 ^ i)` is the library's bit `i`: the bit of the natural number, or for `-(m + 1)` the
complement of the bit of `m`. -/
theorem bitAt_eq_testBit (v : Int) (i : Nat) : bitAt v i = v.testBit i := by
  have hpow : (2 : Int) ^ i = ((2 ^ i : Nat) : Int) := (Int.natCast_pow 2 i).symm
  have hpos : (0 : Int) < ((2 ^ i : Nat) : Int) := by exact_mod_cast Nat.two_pow_pos i
  rw [bitAt, hpow, Int.fdiv_eq_ediv_of_nonneg v hpos.le, Bool.eq_iff_iff, beq_iff_eq]
  cases v with
  | ofNat m =>
    have hdiv : Int.ofNat m / ((2 ^ i : Nat) : Int) = ((m / 2 ^ i : Nat) : Int) := rfl
    rw [hdiv, Int.testBit, Nat.testBit_eq_decide_div_mod_eq, decide_eq_true_iff]
    omega
  | negSucc m =>
    have hdiv : Int.negSucc m / ((2 ^ i : Nat) : Int) = -(((m / 2 ^ i : Nat) : Int) + 1) := Int.negSucc_ediv m hpos
    rw [hdiv, Int.testBit, Nat.testBit_eq_decide_div_mod_eq, Bool.not_eq_true', decide_eq_false_iff_not]
    omega

theorem bitAt_xorInt (a b : Int) (i : Nat) : bitAt (xorInt a b) i = (bitAt a i != bitAt b i) := by
  simp only [bitAt_eq_testBit, xorInt_eq_xor, Int.testBit_lxor, Bool.bne_eq_xor]

/-- A natural number and the complement of one differ at every bit above both. -/
theorem exists_testBit_ne_not_testBit (m n : Nat) : ∃ i, m.testBit i ≠ !n.testBit i := by
  refine ⟨m + n, ?_⟩
  have hm : m < 2 ^ (m + n) := Nat.lt_of_le_of_lt (Nat.le_add_right m n) Nat.lt_two_pow_self
  have hn : n < 2 ^ (m + n) := Nat.lt_of_le_of_lt (Nat.le_add_left n m) Nat.lt_two_pow_self
  simp [Nat.testBit_lt_two_pow hm, Nat.testBit_lt_two_pow hn]

theorem eq_of_testBit_eq {a b : Int} (h : ∀ i, a.testBit i = b.testBit i) : a = b := by
  match a, b, h with
  | .ofNat m, .ofNat n, h => exact congrArg Int.ofNat (Nat.eq_of_testBit_eq h)
  | .ofNat m, .negSucc n, h =>
    obtain ⟨i, hi⟩ := exists_testBit_ne_not_testBit m n
    exact absurd (h i) hi
  | .negSucc m, .ofNat n, h =>
    obtain ⟨i, hi⟩ := exists_testBit_ne_not_testBit n m
    exact absurd (h i).symm hi
  | .negSucc m, .negSucc n, h =>
    exact congrArg Int.negSucc (Nat.eq_of_testBit_eq fun i => Bool.not_inj (h i))

theorem eq_of_bitAt_eq {a b : Int} (h : ∀ i, bitAt a i = bitAt b i) : a = b :=
  eq_of_testBit_eq fun i => by rw [← bitAt_eq_testBit, ← bitAt_eq_testBit, h i]

/-- Settles O29: both halves through the library's two's complement bits. -/
theorem xorIsBitwise : Obligations.XorIsBitwise :=
  ⟨bitAt_xorInt, fun _ _ h => eq_of_bitAt_eq h⟩

/-! ## Exclusive-or at a finite width (R16, decision D2) -/

/-- Truncation to any width commutes with exclusive-or: a complemented operand complements the word. -/
theorem ofInt_xorInt (n : Nat) (a b : Int) :
    BitVec.ofInt n (xorInt a b) = BitVec.ofInt n a ^^^ BitVec.ofInt n b := by
  match a, b with
  | .ofNat p, .ofNat q => exact BitVec.ofNat_xor
  | .ofNat p, .negSucc q =>
    simp [xorInt, BitVec.ofInt_negSucc_eq_not_ofNat, BitVec.ofNat_xor, BitVec.not_xor_right]
  | .negSucc p, .ofNat q =>
    simp [xorInt, BitVec.ofInt_negSucc_eq_not_ofNat, BitVec.ofNat_xor, BitVec.not_xor_left]
  | .negSucc p, .negSucc q =>
    simp [xorInt, BitVec.ofInt_negSucc_eq_not_ofNat, BitVec.ofNat_xor, ← BitVec.not_xor_left, ← BitVec.not_xor_right]

/-- The natural number an integer is, or, for a negative one, is the complement of: its two's complement bits once the
sign is taken out. -/
def unsignedBits : Int → Nat
  | .ofNat m => m
  | .negSucc m => m

theorem unsignedBits_xorInt (a b : Int) : unsignedBits (xorInt a b) = unsignedBits a ^^^ unsignedBits b := by
  cases a <;> cases b <;> rfl

/-- The two's complement range of `m + 1` bits: `m` bits beside the sign. -/
theorem unsignedBits_lt_iff (a : Int) (m : Nat) : unsignedBits a < 2 ^ m ↔ -(2 : Int) ^ m ≤ a ∧ a < 2 ^ m := by
  have hpow : (2 : Int) ^ m = ((2 ^ m : Nat) : Int) := (Int.natCast_pow 2 m).symm
  rw [hpow]
  cases a <;> simp only [unsignedBits, Int.ofNat_eq_natCast] <;> omega

theorem xorInt_range {m : Nat} {a b : Int} (ha : -(2 : Int) ^ m ≤ a ∧ a < 2 ^ m) (hb : -(2 : Int) ^ m ≤ b ∧ b < 2 ^ m) :
    -(2 : Int) ^ m ≤ xorInt a b ∧ xorInt a b < 2 ^ m := by
  rw [← unsignedBits_lt_iff] at ha hb ⊢
  rw [unsignedBits_xorInt]
  exact Nat.xor_lt_two_pow ha hb

/-- Settles O30: the word of `xor` is the exclusive-or of the words, and `xor` stays in the range in which a word's
signed value is the integer itself. -/
theorem xorAgreesWithFiniteWidth : Obligations.XorAgreesWithFiniteWidth := by
  intro n a b hn ha ha' hb hb'
  obtain ⟨hlo, hhi⟩ := xorInt_range ⟨ha, ha'⟩ ⟨hb, hb'⟩
  rw [← ofInt_xorInt, BitVec.toInt_ofInt_eq_self hn hlo hhi]

end Sys2Proof.Machine
end

section
/-!
SUPPORT AND PROOFS. The state of 10_state.md: its values after reset and load (R36), what an instruction writes
and leaves unchanged (R23), how the `pc` moves (R25), and that the output is only ever appended to and never read (R33).
-/

namespace Sys2Proof.Machine

/-! ## Reset and load (R36) -/

/-- Settles O41: field by field, by the laws of `State.resetWith`. -/
theorem resetStateTable : Obligations.ResetStateTable :=
  ⟨fun a b c p f =>
    ⟨State.resetWith_A a b c p f, State.resetWith_B a b c p f, State.resetWith_C a b c p f,
      State.resetWith_pc a b c p f, State.resetWith_out a b c p f, State.resetWith_fault a b c p f,
      State.resetWith_left0 a b c p f, State.resetWith_prog a b c p f, State.resetWith_form a b c p f⟩,
    rfl⟩

/-- Over a well-formed tape the state of reset meets the invariant: `pc` is 0, and nothing is recorded or latched. -/
theorem State.resetWith_inv (a b c : RegVal) {p : List Cell} (f : Form) (hp : Memory.wf p) :
    (State.resetWith a b c p f).Inv where
  tape := hp
  bound := Nat.zero_le _
  record := by simp
  latch := by simp

/-- Settles O33: the empty program is well formed. -/
theorem resetMeetsInvariant : Obligations.ResetMeetsInvariant :=
  State.resetWith_inv 0 0 0 .run reset_memory_wf

theorem load_pc {x : XLen} {f : Form} {cfg : HostConfig} {s : State} (h : load x f cfg = .ok s) : s.pc = 0 := by
  obtain ⟨-, rfl⟩ := (load_eq_ok_iff x f cfg s).mp h
  exact State.resetWith_pc ..

theorem load_out {x : XLen} {f : Form} {cfg : HostConfig} {s : State} (h : load x f cfg = .ok s) : s.out = [] := by
  obtain ⟨-, rfl⟩ := (load_eq_ok_iff x f cfg s).mp h
  exact State.resetWith_out ..

/-! ## What an instruction writes (R23) -/

/-- R23's table of registers written: one of `A`, `B`, `C` or the output with an advance, the `pc` alone, or a fault
record alone; the last only for an instruction with a combo operand. -/
theorem exec_write_cases {i : Instr} {s t : State} (h : exec i s = .next t) :
    (∃ v, i.opcode = .adv ∧ t = (s.setA v).advance) ∨
    (∃ v, (i.opcode = .bxl ∨ i.opcode = .bst ∨ i.opcode = .bxc ∨ i.opcode = .bdv) ∧ t = (s.setB v).advance) ∨
    (∃ v, i.opcode = .cdv ∧ t = (s.setC v).advance) ∨
    (∃ d, i.opcode = .out ∧ t = (s.outAppend d).advance) ∨
    (i.opcode = .jnz ∧ t = s.setPc (if s.A = 0 then s.pc + 2 else i.operand.toNat)) ∨
    (∃ r, i.opcode.format = .combo ∧ t = s.setFault r) := by
  obtain ⟨t', ht, hc⟩ := exec_cases i s
  obtain rfl : t' = t := Host.Outcome.next.inj (ht.symm.trans h)
  rcases hc with ⟨_, -, -, ho, rfl⟩ | ⟨_, -, -, ho, rfl⟩ | ⟨_, -, -, ho, rfl⟩ | ⟨ho, rfl⟩ | ⟨_, -, ho, rfl⟩ |
    ⟨ho, rfl⟩ | ⟨hA, ho, rfl⟩ | ⟨hA, ho, rfl⟩ | ⟨_, -, ho, rfl⟩ | ⟨_, -, -, ho, rfl⟩ | ⟨-, ho, rfl⟩
  · exact .inl ⟨_, ho, rfl⟩
  · exact .inr (.inl ⟨_, .inr (.inr (.inr ho)), rfl⟩)
  · exact .inr (.inr (.inl ⟨_, ho, rfl⟩))
  · exact .inr (.inl ⟨_, .inl ho, rfl⟩)
  · exact .inr (.inl ⟨_, .inr (.inl ho), rfl⟩)
  · exact .inr (.inl ⟨_, .inr (.inr (.inl ho)), rfl⟩)
  · exact .inr (.inr (.inr (.inr (.inl ⟨ho, by rw [if_neg hA]⟩))))
  · exact .inr (.inr (.inr (.inr (.inl ⟨ho, by rw [if_pos hA]; rfl⟩))))
  · exact .inr (.inr (.inr (.inl ⟨_, ho, rfl⟩)))
  · exact .inr (.inr (.inr (.inr (.inr ⟨_, by rcases ho with ho | ho | ho <;> rw [ho] <;> rfl, rfl⟩))))
  · exact .inr (.inr (.inr (.inr (.inr ⟨_, ho, rfl⟩))))

/-- Settles O22: each row of `exec_write_cases` writes what its opcode may write; the tape, the transaction and the
latch are `exec_keeps_load`. -/
theorem instructionFrame : Obligations.InstructionFrame := by
  intro i s t h
  obtain ⟨hprog, hform, hleft0⟩ := exec_keeps_load h
  rw [hprog]
  simp only [hform, hleft0, implies_true, true_and]
  rcases exec_write_cases h with ⟨v, ho, rfl⟩ | ⟨v, ho, rfl⟩ | ⟨v, ho, rfl⟩ | ⟨d, ho, rfl⟩ | ⟨ho, rfl⟩ | ⟨r, ho, rfl⟩
  · simp [ho]
  · rcases ho with ho | ho | ho | ho <;> simp [ho]
  · simp [ho]
  · simp [ho]
  · simp [ho]
  · have hno : ¬ (i.opcode = .bxl ∨ i.opcode = .jnz ∨ i.opcode = .bxc) := by
      rintro (e | e | e) <;> rw [e] at ho <;> cases ho
    simp [hno]

/-! ## How the `pc` moves (R25) -/

theorem exec_pc {i : Instr} {s t : State} (h : exec i s = .next t) (hf : t.fault = none) :
    t.pc = if i.opcode = .jnz ∧ s.A ≠ 0 then i.operand.toNat else s.pc + 2 := by
  rcases exec_write_cases h with ⟨v, ho, rfl⟩ | ⟨v, ho, rfl⟩ | ⟨v, ho, rfl⟩ | ⟨d, ho, rfl⟩ | ⟨ho, rfl⟩ | ⟨r, ho, rfl⟩
  · simp [ho]
  · rcases ho with ho | ho | ho | ho <;> simp [ho]
  · simp [ho]
  · simp [ho]
  · by_cases hA : s.A = 0 <;> simp [ho, hA]
  · cases hf

/-- Settles O23: `load_pc` and `exec_pc`. -/
theorem pcAdvancesByTwoOrJumps : Obligations.PcAdvancesByTwoOrJumps := by
  refine ⟨rfl, fun x f cfg s => load_pc, fun i s t _ h hf => ⟨?_, ?_⟩⟩
  · rintro hA l rfl
    rw [exec_pc h hf, if_pos ⟨rfl, hA⟩]
    rfl
  · intro hstay
    rw [exec_pc h hf, if_neg (by tauto)]

/-! ## The output is appended to by `out` alone (R33) -/

/-- A decoded instruction has the two cells it was decoded from. -/
theorem decode_cells {x y : Cell} {i : Instr} (h : decode x y = .ok i) : i.opcode.toCell = x ∧ i.operand = y := by
  have hopcode : ∀ c, (Opcode.ofCell c).toCell = c := by decide
  have hparts : ∀ op, (Instr.ofParts op y).opcode = op ∧ (Instr.ofParts op y).operand = y := by
    intro op
    cases op <;> exact ⟨rfl, rfl⟩
  unfold decode at h
  split at h
  · cases h
  · cases h
    rw [(hparts _).1, hopcode]
    exact ⟨rfl, (hparts _).2⟩

theorem exec_out_cases {i : Instr} {s t : State} (h : exec i s = .next t) :
    t.out = s.out ∨ i.opcode = .out ∧ ∃ d, t.out = s.out ++ [d] := by
  rcases exec_write_cases h with ⟨_, _, rfl⟩ | ⟨_, _, rfl⟩ | ⟨_, _, rfl⟩ | ⟨d, ho, rfl⟩ | ⟨_, rfl⟩ | ⟨_, _, rfl⟩
  case inr.inr.inr.inl => exact .inr ⟨ho, d, rfl⟩
  all_goals exact .inl rfl

@[simp] theorem latchLeft0_out (t : State) : (latchLeft0 t).out = t.out := by
  rw [latchLeft0_eq]

theorem step_out_cases {s t : State} (h : step s = .next t) :
    t.out = s.out ∨ s.prog[s.pc]? = some 5#3 ∧ ∃ d, t.out = s.out ++ [d] := by
  obtain ⟨-, -, -, u, rfl, ⟨-, rfl⟩ | ⟨x, y, -, hx, -, ⟨-, rfl⟩ | ⟨i, hi, hu⟩⟩⟩ := step_next_cases h
  · exact .inl (latchLeft0_out _)
  · exact .inl (latchLeft0_out _)
  · rw [latchLeft0_out]
    refine (exec_out_cases hu).imp_right fun ⟨ho, hd⟩ => ⟨?_, hd⟩
    rw [hx, ← (decode_cells hi).1, ho]
    rfl

/-! ## The output is read by nothing (R33)

Prepending cells to the output commutes with every operation of the machine: what is already there neither decides what
a step does nor is touched by it. -/

/-- The state with the cells `p` put before the output. -/
def State.prependOut (p : List Cell) (s : State) : State := { s with out := p ++ s.out }

/-- Apply a function to the next state of a result. -/
def mapNext (f : State → State) : Result → Result
  | .next t => .next (f t)
  | .fault r => .fault r
  | .refused r => .refused r

theorem mapNext_eq_next {f : State → State} {r : Result} {t : State} (h : mapNext f r = .next t) :
    ∃ u, r = .next u ∧ f u = t := by
  cases r with
  | next u => exact ⟨u, rfl, Host.Outcome.next.inj h⟩
  | fault _ => cases h
  | refused _ => cases h

section
variable (p : List Cell) (s : State)

theorem prependOut_pc : (s.prependOut p).pc = s.pc := rfl

theorem prependOut_prog : (s.prependOut p).prog = s.prog := rfl

theorem combo_prependOut (c : Cell) : combo (s.prependOut p) c = combo s c := rfl

theorem stopReason_prependOut : stopReason (s.prependOut p) = stopReason s := rfl

theorem raise_prependOut (cause : FaultCause) (info : Int) :
    raise cause info (s.prependOut p) = mapNext (.prependOut p) (raise cause info s) := rfl

theorem outAppend_prependOut (d : Cell) : (s.prependOut p).outAppend d = (s.outAppend d).prependOut p := by
  simp [State.prependOut, State.outAppend]

theorem writeReg_prependOut (v : RegVal) :
    ∀ dst, writeReg (s.prependOut p) dst v = (writeReg s dst v).prependOut p
  | 0 => rfl
  | 1 => rfl
  | 2 => rfl

theorem latchLeft0_prependOut : latchLeft0 (s.prependOut p) = (latchLeft0 s).prependOut p := by
  rw [latchLeft0_eq, latchLeft0_eq]
  rfl

theorem withCombo_prependOut (op : Opcode) (c : Cell) {use use' : Int → Result}
    (h : ∀ v, use' v = mapNext (.prependOut p) (use v)) :
    withCombo op c (s.prependOut p) use' = mapNext (.prependOut p) (withCombo op c s use) := by
  unfold withCombo
  rw [combo_prependOut]
  cases combo s c with
  | none => exact raise_prependOut p s _ _
  | some v => exact h v

theorem withExponent_prependOut (op : Opcode) (c : Cell) {use use' : Nat → Result}
    (h : ∀ k, use' k = mapNext (.prependOut p) (use k)) :
    withExponent op c (s.prependOut p) use' = mapNext (.prependOut p) (withExponent op c s use) := by
  refine withCombo_prependOut p s op c fun k => ?_
  split
  · exact raise_prependOut p s _ _
  · exact h _

theorem divideInto_prependOut (op : Opcode) (dst : Fin 3) (c : Cell) :
    divideInto op dst c (s.prependOut p) = mapNext (.prependOut p) (divideInto op dst c s) := by
  refine withExponent_prependOut p s op c fun k => ?_
  rw [writeReg_prependOut]
  rfl

theorem execOut_prependOut (c : Cell) : execOut c (s.prependOut p) = mapNext (.prependOut p) (execOut c s) := by
  refine withCombo_prependOut p s .out c fun v => ?_
  rw [outAppend_prependOut]
  rfl

theorem execJnz_prependOut (l : Cell) : execJnz l (s.prependOut p) = mapNext (.prependOut p) (execJnz l s) := by
  by_cases hA : s.A = 0
  · rw [execJnz_of_eq hA, execJnz_of_eq (s := s.prependOut p) hA]
    rfl
  · rw [execJnz_of_ne hA, execJnz_of_ne (s := s.prependOut p) hA]
    rfl

theorem exec_prependOut (i : Instr) : exec i (s.prependOut p) = mapNext (.prependOut p) (exec i s) := by
  cases i with
  | adv c => exact divideInto_prependOut p s .adv 0 c
  | bxl l => rfl
  | bst c => exact withCombo_prependOut p s .bst c fun _ => rfl
  | jnz l => exact execJnz_prependOut p s l
  | bxc u => rfl
  | out c => exact execOut_prependOut p s c
  | bdv c => exact divideInto_prependOut p s .bdv 1 c
  | cdv c => exact divideInto_prependOut p s .cdv 2 c

theorem runPair_prependOut (x y : Cell) :
    runPair x y (s.prependOut p) = mapNext (.prependOut p) (runPair x y s) := by
  unfold runPair
  rcases decode x y with ⟨w⟩ | i
  · exact raise_prependOut p s _ _
  · exact exec_prependOut p s i

theorem fetchAndRun_prependOut : fetchAndRun (s.prependOut p) = mapNext (.prependOut p) (fetchAndRun s) := by
  unfold fetchAndRun
  rw [prependOut_pc, prependOut_prog]
  split
  · exact raise_prependOut p s _ _
  · split
    · exact runPair_prependOut p s _ _
    · rfl

theorem step_prependOut : step (s.prependOut p) = mapNext (.prependOut p) (step s) := by
  unfold step
  rw [stopReason_prependOut, fetchAndRun_prependOut]
  cases stopReason s with
  | some _ => rfl
  | none =>
    cases fetchAndRun s with
    | next t => exact congrArg Host.Outcome.next (latchLeft0_prependOut p t)
    | fault _ => rfl
    | refused _ => rfl

/-- Prepending to the empty output sets it. -/
theorem prependOut_clear : State.prependOut p { s with out := [] } = { s with out := p } := by
  rw [State.prependOut, List.append_nil]

end

/-- Settles O38: the cells a step appends are those it appends to the empty output, and prepending any other output
commutes with the step. -/
theorem outputIsAppendOnlyAndUnread : Obligations.OutputIsAppendOnlyAndUnread := by
  refine ⟨rfl, fun x f cfg s => load_out, fun s t h => ?_⟩
  have hstep : ∀ o, step { s with out := o } = mapNext (.prependOut o) (step { s with out := [] }) := fun o => by
    rw [← prependOut_clear, step_prependOut]
  obtain ⟨u, hu, rfl⟩ := mapNext_eq_next ((hstep s.out).symm.trans h)
  refine ⟨u.out, rfl, ?_, ?_, fun o => by rw [hstep o, hu]; rfl⟩
  · rcases step_out_cases hu with ho | ⟨-, d, ho⟩ <;> simp [ho]
  · exact fun hne => (step_out_cases hu).elim (absurd · hne) And.left

end Sys2Proof.Machine
end

section
/-!
SUPPORT AND PROOFS. The tape of 20_memory.md: no step and no run changes it, so every fetch returns the cell that was
loaded (R61).
-/

namespace Sys2Proof.Machine

/-- The state an execution under fuel ended in, whichever way it ended. -/
def RunEnd.state : RunEnd → State
  | .stopped _ s => s
  | .refused _ s => s
  | .outOfFuel s => s

/-- What every step keeps, a run keeps: it holds of the state in which the run stops or its fuel runs out. -/
theorem runUntilStop_keeps {P : State → Prop} (hstep : ∀ {s t : State}, step s = .next t → P s → P t)
    (n : Nat) {s : State} (hs : P s) : P (runUntilStop n s).state := by
  induction n generalizing s with
  | zero =>
    unfold runUntilStop
    cases stopReason s <;> exact hs
  | succ n ih =>
    unfold runUntilStop
    cases stopReason s with
    | some f => exact hs
    | none =>
      cases h : step s with
      | next t => exact ih (hstep h hs)
      | fault f => exact hs
      | refused r => exact hs

theorem runUntilStop_keeps_tape (n : Nat) (s : State) : (runUntilStop n s).state.prog = s.prog :=
  runUntilStop_keeps (P := fun t => t.prog = s.prog) (fun h hs => (step_keeps_tape h).trans hs) n rfl

theorem load_prog {x : XLen} {f : Form} {cfg : HostConfig} {s : State} (h : load x f cfg = .ok s) :
    s.prog = tapeOf cfg.prog := by
  obtain ⟨-, rfl⟩ := (load_eq_ok_iff x f cfg s).mp h
  exact State.resetWith_prog ..

/-- Settles O37: a step keeps the tape, hence a run does, and the load put the host's tape there. -/
theorem tapeNeverChanges : Obligations.TapeNeverChanges := by
  refine ⟨fun s t h => ⟨step_keeps_tape h, fun a n => by rw [step_keeps_tape h]⟩, ?_⟩
  intro x f cfg s t n hload hrun a k
  have hend : (runUntilStop n s).state = t := by
    rcases hrun with e | ⟨r, e⟩ <;> rw [e] <;> rfl
  have htape : t.prog = tapeOf cfg.prog := by
    rw [← hend, runUntilStop_keeps_tape, load_prog hload]
  rw [htape]

end Sys2Proof.Machine
end

section
/-!
SUPPORT AND PROOFS. The encoding of 30_encoding.md: the codec between instructions and pairs of cells (R70 to R79), the
operand interpretations (R75, R76) and the listing (R84 to R86).
-/

namespace Sys2Proof.Machine

/-! ## Decoding and encoding (R70 to R79) -/

/-- The words of every instruction, whichever its operation. -/
theorem wordForm : ∀ i : Instr, Laws.WordForm.Statement i
  | .adv c => Laws.WordForm.adv c
  | .bxl l => Laws.WordForm.bxl l
  | .bst c => Laws.WordForm.bst c
  | .jnz l => Laws.WordForm.jnz l
  | .bxc u => Laws.WordForm.bxc u
  | .out c => Laws.WordForm.out c
  | .bdv c => Laws.WordForm.bdv c
  | .cdv c => Laws.WordForm.cdv c

theorem encode_eq (i : Instr) : encode i = (i.opcode.toCell, i.operand) := by
  obtain ⟨-, hopcode, hoperand, -⟩ := wordForm i
  rw [← hopcode, ← hoperand]

theorem wellFormed_iff (i : Instr) : i.wellFormed = true ↔ isReservedPair i.opcode.toCell i.operand = false := by
  obtain ⟨-, -, -, hwf⟩ := wordForm i
  rw [hwf, encode_eq, Bool.not_eq_true']

theorem ofParts_opcode_operand (i : Instr) : Instr.ofParts i.opcode i.operand = i := by
  cases i <;> rfl

theorem decode_of_not_reserved {x y : Cell} (h : isReservedPair x y = false) :
    decode x y = .ok (Instr.ofParts (Opcode.ofCell x) y) := by
  simp [decode, h]

theorem decode_eq_error_iff (x y : Cell) (w : Nat) :
    decode x y = .error (.reservedCombo w) ↔ isReservedPair x y = true ∧ w = packWord x y := by
  cases h : isReservedPair x y <;> simp [decode, h, eq_comm]

theorem decode_wellFormed {x y : Cell} {i : Instr} (h : decode x y = .ok i) : i.wellFormed = true := by
  obtain ⟨rfl, rfl⟩ := decode_cells h
  rw [wellFormed_iff, ← Bool.not_eq_true]
  intro hres
  cases h.symm.trans ((decode_eq_error_iff _ _ _).mpr ⟨hres, rfl⟩)

theorem decode_encode {i : Instr} (h : i.wellFormed = true) : decode i.opcode.toCell i.operand = .ok i := by
  obtain ⟨hop, hopcode, -, -⟩ := wordForm i
  rw [decode_of_not_reserved ((wellFormed_iff i).mp h), ← hopcode, hop, ofParts_opcode_operand]

/-- Settles O1: `decode_cells` and `decode_wellFormed` one way, `decode_encode` the other. -/
theorem decodeEncodeInverse : Obligations.DecodeEncodeInverse := by
  intro i x y
  rw [encode_eq, Prod.mk.injEq]
  constructor
  · exact fun h => ⟨decode_wellFormed h, decode_cells h⟩
  · rintro ⟨hwf, rfl, rfl⟩
    exact decode_encode hwf

theorem isReservedPair_iff (x y : Cell) :
    isReservedPair x y = true ↔ (x = 0#3 ∨ x = 2#3 ∨ x = 5#3 ∨ x = 6#3 ∨ x = 7#3) ∧ y = 7#3 := by
  simp [isReservedPair, isComboOpcode, or_assoc]

/-- Settles O2: the decoder's one refusal, with `isReservedPair` written out; the three legal sevens decode as the
encodings of their instructions. -/
theorem reservedWordsRefused : Obligations.ReservedWordsRefused := by
  refine ⟨fun x y w => ?_, decode_encode (i := .bxl 7#3) rfl, decode_encode (i := .jnz 7#3) rfl,
    decode_encode (i := .bxc 7#3) rfl⟩
  rw [decode_eq_error_iff, isReservedPair_iff, and_assoc]
  refine and_congr_right fun _ => and_congr_right ?_
  rintro rfl
  rfl

/-- The pair packed into a word of six bits is unpacked from it again (R71). -/
theorem unpackWord_packWord (x y : Cell) : unpackWord (packWord x y) = (x, y) := by
  have hx := cell_toNat_le x
  have hy := cell_toNat_le y
  refine Prod.ext (BitVec.eq_of_toNat_eq ?_) (BitVec.eq_of_toNat_eq ?_) <;>
    simp only [unpackWord, packWord, BitVec.toNat_ofNat] <;> omega

/-- A table word of at least six bits decodes to the well-formed instruction it encodes. -/
theorem decodeTableWord_encodeWord {i : Instr} (h : i.wellFormed = true) {nbits : Nat} (hn : 6 ≤ nbits) :
    decodeTableWord nbits (encodeWord i) = some i := by
  have hx := cell_toNat_le i.opcode.toCell
  have hy := cell_toNat_le i.operand
  have hpow : 2 ^ 6 ≤ 2 ^ nbits := Nat.pow_le_pow_right (by decide) hn
  have hword : encodeWord i = packWord i.opcode.toCell i.operand := by rw [encodeWord, encode_eq]
  have hlt : packWord i.opcode.toCell i.operand < 64 := by
    unfold packWord
    omega
  simp [decodeTableWord, tableWordCells, hword, Nat.mod_eq_of_lt (hlt.trans_le hpow), hlt, unpackWord_packWord,
    decode_encode h]

/-- Settles O3: the words of eight well-formed instructions, and one word that no instruction has. -/
theorem familyWordsDecode : Obligations.FamilyWordsDecode := by
  have word (i : Instr) (h : i.wellFormed = true) : decodeTableWord 8 (encodeWord i) = some i :=
    decodeTableWord_encodeWord h (by decide)
  exact ⟨word (.adv 1#3) rfl, word (.bxl 7#3) rfl, word (.bst 6#3) rfl, word (.jnz 0#3) rfl, word (.bxc 7#3) rfl,
    word (.out 4#3) rfl, word (.bdv 5#3) rfl, word (.cdv 6#3) rfl, by decide⟩

/-! ## Operands (R75, R76) -/

/-- Settles O24: `lit` is the cell's value by definition, and the format of `bxl` and `jnz` is literal. -/
theorem literalIsTheCell : Obligations.LiteralIsTheCell :=
  ⟨fun o => ⟨lit_eq_natCast o, lit_nonneg o, Int.ofNat_le.mpr (cell_toNat_le o)⟩, fun _ => ⟨rfl, rfl⟩⟩

/-- The five instructions with a combo operand raise `ReservedCombo` on operand 7 and write nothing else. -/
theorem exec_reservedCombo {i : Instr} (hformat : i.opcode.format = .combo) (hoperand : i.operand = 7#3) (s : State) :
    exec i s = .next (s.setFault ⟨.reservedCombo, s.pc, packWord i.opcode.toCell 7#3⟩) := by
  have hnone : combo s i.operand = none := (combo_eq_none_iff s _).mpr hoperand
  rw [← hoperand]
  cases i with
  | adv c => exact withCombo_of_none hnone
  | bst c => exact withCombo_of_none hnone
  | out c => exact withCombo_of_none hnone
  | bdv c => exact withCombo_of_none hnone
  | cdv c => exact withCombo_of_none hnone
  | bxl l => cases hformat
  | jnz l => cases hformat
  | bxc u => cases hformat

/-- Settles O25: the table row by row, and `exec_reservedCombo` for operand 7. -/
theorem comboOperandTable : Obligations.ComboOperandTable := fun s =>
  ⟨rfl, rfl, rfl, rfl, rfl, rfl, rfl, rfl, fun _ hformat hoperand => ⟨_, exec_reservedCombo hformat hoperand s⟩⟩

/-! ## The listing (R84 to R86) -/

theorem find?_mnemonic (op : Opcode) : (allOpcodes.find? fun op' => mnemonic op' == mnemonic op) = some op := by
  cases op <;> decide

theorem literalText_inj : ∀ x y : Cell, literalText x = literalText y ↔ x = y := by decide

/-- The reserved operand's text is none of the other seven. -/
theorem comboText_inj : ∀ x y : Cell, comboText x = comboText y ↔ x = y := by decide

theorem operandText_inj (op : Opcode) (x y : Cell) : operandText op x = operandText op y ↔ x = y := by
  unfold operandText
  cases op.format with
  | combo => exact comboText_inj x y
  | literal => exact literalText_inj x y
  | unused => exact literalText_inj x y

theorem find?_operandText (op : Opcode) (o : Cell) :
    (allCells.find? fun o' => operandText op o' == operandText op o && !isReservedPair op.toCell o') =
      if isReservedPair op.toCell o = true then none else some o := by
  have hfind : ∀ x o : Cell, (allCells.find? fun o' => o' == o && !isReservedPair x o') =
      if isReservedPair x o = true then none else some o := by decide
  rw [← hfind]
  congr 1
  funext o'
  rw [Bool.eq_iff_iff]
  simp [operandText_inj]

/-- A line spelled as the listing spells it assembles to its two cells, unless they are a reserved word. -/
theorem assembleLine_listed (i : Instr) :
    assembleLine (mnemonic i.opcode) (some (operandText i.opcode i.operand)) =
      if i.wellFormed = true then some (encode i) else none := by
  rw [assembleLine, find?_mnemonic]
  simp only [find?_operandText, wellFormed_iff, encode_eq]
  cases isReservedPair i.opcode.toCell i.operand <;> simp

/-- No line assembles to a reserved word: the assembler only answers operands that are not reserved. -/
theorem assembleLine_not_reserved {name : String} {operand : Option String} {x y : Cell}
    (h : assembleLine name operand = some (x, y)) : isReservedPair x y = false := by
  unfold assembleLine at h
  split at h
  · cases h
  · rename_i op _
    split at h
    · split at h
      · rename_i hbxc
        cases h
        rw [hbxc]
        rfl
      · cases h
    · split at h
      · cases h
      · rename_i o hfind
        cases h
        have hp := List.find?_some hfind
        simp only [Bool.and_eq_true, Bool.not_eq_true'] at hp
        exact hp.2

/-- Settles O4: both listings by `assembleLine_listed`, and `assembleLine_not_reserved` for every other text. -/
theorem listingRoundTrip : Obligations.ListingRoundTrip := by
  refine ⟨fun i h => ?_, fun i h => ?_, fun i name operand h hline => ?_⟩
  · rw [assembleLine_listed, if_pos h]
  · rw [assembleLine_listed, if_neg (by simp [h])]
  · rw [encode_eq] at hline
    have hwf := (wellFormed_iff i).mpr (assembleLine_not_reserved hline)
    rw [h] at hwf
    cases hwf

end Sys2Proof.Machine
end

section
/-!
SUPPORT AND PROOFS. What the well-formedness of the tape (30_encoding.md R83) secures during a run: what a step that
faults has done, how far a step moves the `pc`, hence the machine's invariant, and that no step meets a reserved word or
half an instruction.
-/

namespace Sys2Proof.Machine

/-! ## What a step that faults has done (60_exceptions.md R177, R178) -/

theorem latchLeft0_of_fault {t : State} (h : t.fault ≠ none) : latchLeft0 t = t := by
  simp [latchLeft0, h]

@[simp] theorem latchLeft0_fault (t : State) : (latchLeft0 t).fault = t.fault := by
  rw [latchLeft0_eq]

@[simp] theorem latchLeft0_pc (t : State) : (latchLeft0 t).pc = t.pc := by
  rw [latchLeft0_eq]

@[simp] theorem latchLeft0_form (t : State) : (latchLeft0 t).form = t.form := by
  rw [latchLeft0_eq]

/-- The latch is set in an iteration alone. -/
theorem latchLeft0_left0 {t : State} (h : (latchLeft0 t).left0 = true) : t.left0 = true ∨ t.form = .iteration := by
  rw [latchLeft0_eq] at h
  simp only [Bool.or_eq_true, decide_eq_true_eq] at h
  exact h.imp_right And.left

/-- A negative combo operand is the value of a register. -/
theorem combo_neg {s : State} {o : Cell} {k : Int} (h : combo s o = some k) (hk : k < 0) :
    k = s.A ∨ k = s.B ∨ k = s.C := by
  rcases combo_cases s o with ⟨-, e⟩ | ⟨-, e⟩ | ⟨-, e⟩ | ⟨-, e⟩ | ⟨-, e⟩ <;> rw [e] at h <;> cases h
  · omega
  · exact .inl rfl
  · exact .inr (.inl rfl)
  · exact .inr (.inr rfl)

/-- A well-formed instruction that faults is a division by a negative exponent, and has written the record alone. -/
theorem exec_fault {i : Instr} {s t : State} {r : FaultRecord} (hwf : i.wellFormed = true) (hs : s.fault = none)
    (h : exec i s = .next t) (hr : t.fault = some r) :
    t = s.setFault r ∧ ∃ k < 0, (k = s.A ∨ k = s.B ∨ k = s.C) ∧ r = ⟨.negativeExponent, s.pc, k⟩ := by
  obtain ⟨t', ht, hc⟩ := exec_cases i s
  obtain rfl : t' = t := Host.Outcome.next.inj (ht.symm.trans h)
  rcases hc with ⟨_, _, _, _, rfl⟩ | ⟨_, _, _, _, rfl⟩ | ⟨_, _, _, _, rfl⟩ | ⟨_, rfl⟩ | ⟨_, _, _, rfl⟩ | ⟨_, rfl⟩ |
    ⟨_, _, rfl⟩ | ⟨_, _, rfl⟩ | ⟨_, _, _, rfl⟩ | ⟨k, hk, hneg, _, rfl⟩ | ⟨hoperand, hformat, rfl⟩
  iterate 9 cases hs.symm.trans hr
  · cases hr
    exact ⟨rfl, k, hneg, combo_neg hk hneg, rfl⟩
  · simp [Instr.wellFormed, hoperand, hformat] at hwf

/-- A step that faults was running and has written the record alone; the record tells of an odd fetch, of a reserved
word at `pc`, or of a division by a negative exponent. -/
theorem step_fault_cases {s t : State} {r : FaultRecord} (h : step s = .next t) (hr : t.fault = some r) :
    s.pc < s.prog.length ∧ t = s.setFault r ∧
      ((s.pc % 2 = 1 ∧ r = ⟨.misalignedFetch, s.pc, s.pc⟩) ∨
       (∃ x y, s.pc % 2 = 0 ∧ s.prog[s.pc]? = some x ∧ s.prog[s.pc + 1]? = some y ∧ isReservedPair x y = true ∧
          r = ⟨.reservedCombo, s.pc, packWord x y⟩) ∨
       (s.pc % 2 = 0 ∧ ∃ k < 0, (k = s.A ∨ k = s.B ∨ k = s.C) ∧ r = ⟨.negativeExponent, s.pc, k⟩)) := by
  obtain ⟨hs, hl, -, u, rfl, hu⟩ := step_next_cases h
  rw [latchLeft0_fault] at hr
  rw [latchLeft0_of_fault (by simp [hr])]
  refine ⟨hl, ?_⟩
  rcases hu with ⟨hodd, rfl⟩ | ⟨x, y, heven, hx, hy, ⟨hres, rfl⟩ | ⟨i, hi, hexec⟩⟩
  · cases hr
    exact ⟨rfl, .inl ⟨hodd, rfl⟩⟩
  · cases hr
    exact ⟨rfl, .inr (.inl ⟨x, y, heven, hx, hy, hres, rfl⟩)⟩
  · obtain ⟨hu, hrec⟩ := exec_fault (decode_wellFormed hi) hs hexec hr
    exact ⟨hu, .inr (.inr ⟨heven, hrec⟩)⟩

/-! ## Where a step leads (10_state.md R26, R34) -/

/-- Without a fault a step advances over the pair it ran, which is whole on the tape, or jumps to a literal. -/
theorem step_pc_le {s t : State} (h : step s = .next t) (hf : t.fault = none) : t.pc ≤ max s.prog.length 7 := by
  obtain ⟨-, -, -, u, rfl, ⟨-, rfl⟩ | ⟨x, y, -, -, hy, ⟨-, rfl⟩ | ⟨i, -, hexec⟩⟩⟩ := step_next_cases h <;>
    rw [latchLeft0_fault] at hf
  · cases hf
  · cases hf
  · have hlast := (List.getElem?_eq_some_iff.mp hy).1
    have hlit := cell_toNat_le i.operand
    rw [latchLeft0_pc, exec_pc hexec hf]
    split <;> omega

theorem step_latch {s t : State} (h : step s = .next t) (hlatch : t.left0 = true) :
    s.left0 = true ∨ t.form = .iteration := by
  obtain ⟨-, -, -, u, rfl, hu⟩ := step_next_cases h
  have hkeep : u.left0 = s.left0 := by
    rcases hu with ⟨-, rfl⟩ | ⟨x, y, -, -, -, ⟨-, rfl⟩ | ⟨i, -, hexec⟩⟩
    · rfl
    · rfl
    · obtain ⟨-, -, hleft0⟩ := exec_keeps_load hexec
      exact hleft0
  rw [← hkeep, latchLeft0_form]
  exact latchLeft0_left0 hlatch

theorem step_form {s t : State} (h : step s = .next t) : t.form = s.form := by
  obtain ⟨-, -, -, u, rfl, ⟨-, rfl⟩ | ⟨x, y, -, -, -, ⟨-, rfl⟩ | ⟨i, -, hexec⟩⟩⟩ := step_next_cases h <;>
    rw [latchLeft0_form]
  · rfl
  · rfl
  · obtain ⟨-, hform, -⟩ := exec_keeps_load hexec
    exact hform

/-! ## The invariant, and what no step meets (30_encoding.md R79, R83) -/

/-- A record that is true of a state may be written into it. -/
theorem State.Inv.setFault {s : State} {r : FaultRecord} (hs : s.Inv) (hr : recordFits s r) : (s.setFault r).Inv where
  tape := hs.tape
  bound := hs.bound
  record := by
    rintro _ ⟨⟩
    exact hr
  latch := hs.latch

/-- On a well-formed tape the record of a faulting step is true of the state: no fetched pair is reserved. -/
theorem recordFits_of_step_fault {s t : State} {r : FaultRecord} (htape : Memory.wf s.prog) (h : step s = .next t)
    (hr : t.fault = some r) : recordFits s r := by
  obtain ⟨hl, -, ⟨hodd, rfl⟩ | ⟨x, y, heven, hx, hy, hres, -⟩ | ⟨heven, k, hneg, hk, rfl⟩⟩ := step_fault_cases h hr
  · exact ⟨rfl, hl, hodd, rfl⟩
  · cases hres.symm.trans (Memory.wf_pair htape heven hx hy)
  · exact ⟨rfl, hl, heven, hneg, hk⟩

/-- Settles O32: a step that faults writes a true record and nothing else; one that does not moves the `pc` within the
bound and may set the latch of an iteration. -/
theorem stepKeepsInvariant : Obligations.StepKeepsInvariant := by
  intro s t hs h
  cases hf : t.fault with
  | some r =>
    obtain ⟨-, rfl, -⟩ := step_fault_cases h hf
    exact hs.setFault (recordFits_of_step_fault hs.tape h hf)
  | none =>
    exact {
      tape := step_keeps_memory_wf h hs.tape
      bound := by
        rw [step_keeps_tape h]
        exact step_pc_le h hf
      record := by simp [hf]
      latch := fun hlatch => (step_latch h hlatch).elim (fun hl => (step_form h).trans (hs.latch hl)) id }

/-- Every pair of cells is given an answer: an instruction's next state, or the reserved word's fault. -/
theorem runPair_eq_next (x y : Cell) (s : State) : ∃ t, runPair x y s = .next t := by
  rcases runPair_cases x y s with ⟨i, -, h⟩ | ⟨-, h⟩
  · obtain ⟨t, ht, -⟩ := exec_cases i s
    exact ⟨t, h.trans ht⟩
  · exact ⟨_, h⟩

/-- Half an instruction is met only at the last cell of a tape of odd length. -/
theorem odd_length_of_fetchPastEnd {s : State} {a : Nat} (h : step s = .fault (.fetchPastEnd a)) :
    s.prog.length % 2 = 1 := by
  unfold step at h
  rcases stopReason_cases s with ⟨r, -, e⟩ | ⟨-, -, e⟩ | ⟨-, -, -, e⟩ | ⟨-, hl, -, e⟩ <;> rw [e] at h
  · cases h
  · cases h
  · cases h
  · rcases fetchAndRun_cases s with ⟨-, e⟩ | ⟨x, y, -, -, -, e⟩ | ⟨heven, hend, -⟩
    · rw [e] at h
      cases h
    · obtain ⟨t, ht⟩ := runPair_eq_next x y s
      rw [e, ht] at h
      cases h
    · omega

/-- Settles O39: a record that is true of its state is not of a reserved word, and a well-formed tape has even length. -/
theorem wellFormedTapeHasNoReservedFault : Obligations.WellFormedTapeHasNoReservedFault := by
  refine fun s htape => ⟨fun t r h hr hcause => ?_, fun a h => ?_⟩
  · have hfits := recordFits_of_step_fault htape h hr
    simp [recordFits, hcause] at hfits
  · have heven := Memory.wf_even htape
    have hodd := odd_length_of_fetchPastEnd h
    omega

end Sys2Proof.Machine
end

section
/-!
SUPPORT AND PROOFS. Fetch and dispatch of 40_fetch_dispatch.md: the laws of the quotient and of exclusive-or (R100, R102),
when and why a machine has no step (R90, R91, R96, R106), a step as the decoded instruction and as the spec's pseudocode
(R92 to R95), the ranges no step leaves (R104, R107), and runs in which no jump is taken (R97, R98, R105).
-/

namespace Sys2Proof.Machine

/-! ## The laws of the quotient (R100) -/

/-- The quotient lies between 0 and the dividend, on the dividend's side of 0. -/
theorem tdiv_between (a : Int) (k : Nat) : (0 ≤ tdiv a k ∧ tdiv a k ≤ a) ∨ (a ≤ tdiv a k ∧ tdiv a k ≤ 0) := by
  obtain ⟨m, rfl | rfl⟩ := a.eq_nat_or_neg
  · have hle := Nat.div_le_self m (2 ^ k)
    rw [tdiv_ofNat]
    generalize m / 2 ^ k = q at hle ⊢
    omega
  · have hle := Nat.div_le_self m (2 ^ k)
    rw [tdiv_neg, tdiv_ofNat]
    generalize m / 2 ^ k = q at hle ⊢
    omega

theorem tdiv_nonneg {a : Int} (h : 0 ≤ a) (k : Nat) : 0 ≤ tdiv a k := by
  have := tdiv_between a k
  omega

theorem tdiv_sign {a : Int} {k : Nat} (h : tdiv a k ≠ 0) : (tdiv a k).sign = a.sign := by
  rcases tdiv_between a k with ⟨hlo, hhi⟩ | ⟨hlo, hhi⟩
  · rw [Int.sign_eq_one_of_pos (by omega), Int.sign_eq_one_of_pos (by omega)]
  · rw [Int.sign_eq_neg_one_of_neg (by omega), Int.sign_eq_neg_one_of_neg (by omega)]

/-- The model's quotient is the library's truncating division. -/
theorem tdiv_eq_tdiv (a : Int) (k : Nat) : tdiv a k = Int.tdiv a (2 ^ k) := by
  have hpow : (2 : Int) ^ k = ((2 ^ k : Nat) : Int) := (Int.natCast_pow 2 k).symm
  rw [hpow]
  obtain ⟨m, rfl | rfl⟩ := a.eq_nat_or_neg
  · rw [tdiv_ofNat]
    rfl
  · rw [tdiv_neg, tdiv_ofNat, Int.neg_tdiv]
    rfl

/-- The quotient of a negative dividend is the ceiling: the negated floor of its magnitude's. -/
theorem tdiv_of_neg {a : Int} (h : a < 0) (k : Nat) : tdiv a k = -Int.fdiv (-a) (2 ^ k) := by
  rw [tdiv_eq_tdiv, Int.fdiv_eq_tdiv_of_nonneg (by omega) (by positivity), Int.neg_tdiv, Int.neg_neg]

/-- The range of a finite width, as bounds on `n - 1` bits beside the sign. -/
theorem fits_finite_iff {n : Nat} (h : 64 ≤ n) (a : Int) :
    (XLen.finite n h).fits a = true ↔ -(2 : Int) ^ (n - 1) ≤ a ∧ a < 2 ^ (n - 1) := by
  simp [XLen.fits]

theorem natAbs_lt_of_fits {n : Nat} (h : 64 ≤ n) {a : Int} (ha : (XLen.finite n h).fits a = true) :
    a.natAbs < 2 ^ n := by
  obtain ⟨hlo, hhi⟩ := (fits_finite_iff h a).mp ha
  have hdouble : 2 ^ n = 2 * 2 ^ (n - 1) := by rw [← Nat.pow_succ', show (n - 1).succ = n by omega]
  have hpow : (2 : Int) ^ (n - 1) = ((2 ^ (n - 1) : Nat) : Int) := (Int.natCast_pow 2 _).symm
  have hpos := Nat.two_pow_pos (n - 1)
  rw [hpow] at hlo hhi
  omega

/-- Settles O27: `tdiv_between` bounds the magnitude, and a width's range is below two to the width. -/
theorem tdivLaws : Obligations.TdivLaws := by
  refine ⟨fun a => ?_, fun k => ?_, fun a k => ?_, fun a k => tdiv_sign, fun a k h => tdiv_of_neg h k,
    fun n h a k ha hk => ?_⟩
  · rw [tdiv_eq_tdiv, pow_zero, Int.tdiv_one]
  · rw [tdiv_eq_tdiv, Int.zero_tdiv]
  · have := tdiv_between a k
    omega
  · exact tdiv_eq_zero_of_natAbs_lt ((natAbs_lt_of_fits h ha).trans_le (Nat.pow_le_pow_right (by decide) hk))

/-! ## The laws of exclusive-or (R102) -/

theorem xorInt_comm (a b : Int) : xorInt a b = xorInt b a :=
  eq_of_bitAt_eq fun i => by rw [bitAt_xorInt, bitAt_xorInt, bne_comm]

theorem xorInt_xorInt_cancel (a b : Int) : xorInt (xorInt a b) b = a :=
  eq_of_bitAt_eq fun i => by simp [bitAt_xorInt]

theorem xorInt_nonneg {a b : Int} (ha : 0 ≤ a) (hb : 0 ≤ b) : 0 ≤ xorInt a b := by
  obtain ⟨m, rfl⟩ := Int.eq_ofNat_of_zero_le ha
  obtain ⟨n, rfl⟩ := Int.eq_ofNat_of_zero_le hb
  exact Int.natCast_nonneg _

theorem xorInt_neg_one (a : Int) : xorInt a (-1) = -a - 1 := by
  cases a with
  | ofNat m => simpa using xorInt_nat_neg m 0
  | negSucc m =>
    have h : xorInt (.negSucc m) (-1) = .ofNat (m ^^^ 0) := rfl
    rw [h, Nat.xor_zero, Int.ofNat_eq_natCast]
    omega

/-- Exclusive-or takes the low three bits by themselves. -/
theorem mod8_xorInt (a b : Int) : mod8 (xorInt a b) = xorInt (mod8 a) (mod8 b) := by
  have hcell : ∀ v, mod8 v = ((cellOf v).toNat : Int) := fun v => by rw [mod8_eq_emod, cellOf_toNat]
  rw [hcell, hcell a, hcell b, xorInt_nat_nat, cellOf, ofInt_xorInt, BitVec.toNat_xor]
  rfl

theorem mod8_lit (l : Cell) : mod8 (lit l) = lit l := by
  have := cell_toNat_le l
  rw [mod8_eq_emod, lit_eq_natCast]
  omega

/-- Exclusive-or with a literal leaves the bits above the low three. -/
theorem xorInt_lit_ediv_eight (b : Int) (l : Cell) : xorInt b (lit l) / 8 = b / 8 := by
  have hdiv (m : Nat) : (m ^^^ l.toNat) / 8 = m / 8 := by
    have hl : l.toNat / 2 ^ 3 = 0 := Nat.div_eq_of_lt l.isLt
    have h := Nat.xor_div_two_pow (a := m) (b := l.toNat) (n := 3)
    rwa [hl, Nat.xor_zero] at h
  rw [lit_eq_natCast]
  cases b with
  | ofNat m =>
    have h := xorInt_nat_nat m l.toNat
    have := hdiv m
    simp only [Int.ofNat_eq_natCast]
    omega
  | negSucc m =>
    have h : xorInt (.negSucc m) (l.toNat : Int) = .negSucc (m ^^^ l.toNat) := rfl
    have := hdiv m
    omega

theorem xorInt_lit (b : Int) (l : Cell) : xorInt b (lit l) = b - mod8 b + xorInt (mod8 b) (lit l) := by
  have hhigh := xorInt_lit_ediv_eight b l
  have hlow := mod8_xorInt b (lit l)
  rw [mod8_lit] at hlow
  rw [← hlow, mod8_eq_emod, mod8_eq_emod]
  omega

/-- Settles O31: bit by bit, and for a literal by the quotient and the remainder modulo 8. -/
theorem xorLaws : Obligations.XorLaws :=
  ⟨xorInt_comm, xorInt_xorInt_cancel, xorInt_neg_one, xorInt_lit⟩

/-! ## When a machine has no step (R90, R91, R96, R106) -/

theorem step_of_stopReason {s : State} {f : Fault} (h : stopReason s = some f) : step s = .fault f := by
  simp [step, h]

theorem stopReason_of_running {s : State} (hs : s.Running) (hr : ¬ s.Returned) : stopReason s = none := by
  obtain ⟨hf, hl⟩ := hs
  rcases stopReason_cases s with ⟨r, e, -⟩ | ⟨-, e, -⟩ | ⟨-, -, e, -⟩ | ⟨-, -, -, e⟩
  · cases hf.symm.trans e
  · omega
  · exact absurd e hr
  · exact e

theorem step_of_running {s : State} (hs : s.Running) (hr : ¬ s.Returned) : step s = observeLeft0 (fetchAndRun s) := by
  simp [step, stopReason_of_running hs hr]

/-- What a step answers: one of the three stops, a next state, or the stop at half an instruction, which only a tape of
odd length ends in. -/
theorem step_cases (s : State) :
    (∃ r, s.fault = some r ∧ step s = .fault (.faulted r)) ∨
    (s.Halted ∧ step s = .fault .halted) ∨
    (s.Running ∧ s.Returned ∧ step s = .fault .returned) ∨
    (s.Running ∧ ¬ s.Returned ∧ ∃ t, step s = .next t) ∨
    (s.prog.length % 2 = 1 ∧ step s = .fault (.fetchPastEnd s.pc)) := by
  rcases stopReason_cases s with ⟨r, hf, e⟩ | ⟨hf, hl, e⟩ | ⟨hf, hl, hr, e⟩ | ⟨hf, hl, hr, -⟩
  · exact .inl ⟨r, hf, step_of_stopReason e⟩
  · exact .inr (.inl ⟨⟨hf, hl⟩, step_of_stopReason e⟩)
  · exact .inr (.inr (.inl ⟨⟨hf, hl⟩, hr, step_of_stopReason e⟩))
  · rw [step_of_running ⟨hf, hl⟩ hr]
    rcases fetchAndRun_cases s with ⟨-, e⟩ | ⟨x, y, -, -, -, e⟩ | ⟨heven, hend, e⟩
    · exact .inr (.inr (.inr (.inl ⟨⟨hf, hl⟩, hr, _, by rw [e]; rfl⟩)))
    · obtain ⟨t, ht⟩ := runPair_eq_next x y s
      exact .inr (.inr (.inr (.inl ⟨⟨hf, hl⟩, hr, _, by rw [e, ht]; rfl⟩)))
    · exact .inr (.inr (.inr (.inr ⟨by omega, by rw [e]; rfl⟩)))

theorem step_ne_refused (s : State) (r : Refusal) : step s ≠ .refused r := by
  rcases step_cases s with ⟨_, -, e⟩ | ⟨-, e⟩ | ⟨-, -, e⟩ | ⟨-, -, _, e⟩ | ⟨-, e⟩ <;> simp [e]

/-- Settles O6: the cases of `step_cases` exclude one another, and the last one needs a tape of odd length. -/
theorem stopsExactlyWhenNotRunning : Obligations.StopsExactlyWhenNotRunning := by
  intro s heven
  have hexcl : s.Running → ¬ s.Halted := fun hs hh => absurd hh.2 (Nat.not_le.mpr hs.2)
  rcases step_cases s with ⟨r, hf, e⟩ | ⟨hh, e⟩ | ⟨hs, hr, e⟩ | ⟨hs, hr, t, e⟩ | ⟨hodd, -⟩
  · simp [e, hf]
  · grind
  · grind
  · grind
  · omega

theorem stopReason_of_halted {s : State} (h : s.Halted) : stopReason s = some .halted := by
  obtain ⟨hf, hl⟩ := h
  rcases stopReason_cases s with ⟨r, e, -⟩ | ⟨-, -, e⟩ | ⟨-, e, -⟩ | ⟨-, e, -⟩
  · cases hf.symm.trans e
  · exact e
  · omega
  · omega

/-- Settles O9: `Halted` is tested before anything is fetched, and over the empty program `pc` 0 is past the end. -/
theorem haltTestBeforeAlignment : Obligations.HaltTestBeforeAlignment :=
  ⟨fun _ hf hl => step_of_stopReason (stopReason_of_halted ⟨hf, hl⟩),
    fun _ _ _ _ => step_of_stopReason (stopReason_of_halted ⟨rfl, Nat.le_refl 0⟩)⟩

/-! ## The faults of a fetch (R91, R94) -/

theorem observeLeft0_setFault (s : State) (r : FaultRecord) :
    observeLeft0 (.next (s.setFault r)) = .next (s.setFault r) :=
  congrArg Host.Outcome.next (latchLeft0_of_fault (by simp))

/-- Settles O10: an odd index is not 0, so the machine is not a returned iteration, and its fetch faults. -/
theorem misalignedFetchTaken : Obligations.MisalignedFetchTaken := by
  refine ⟨rfl, fun s hs hodd => ?_⟩
  have hr : ¬ s.Returned := by
    rintro ⟨-, -, h⟩
    omega
  rw [step_of_running hs hr]
  rcases fetchAndRun_cases s with ⟨-, e⟩ | ⟨x, y, heven, -⟩ | ⟨heven, -⟩
  · rw [e, observeLeft0_setFault]
    rfl
  · omega
  · omega

theorem runPair_of_reserved {x y : Cell} (h : isReservedPair x y = true) (s : State) :
    runPair x y s = .next (s.setFault ⟨.reservedCombo, s.pc, packWord x y⟩) := by
  rcases runPair_cases x y s with ⟨i, hi, -⟩ | ⟨-, e⟩
  · cases ((decode_eq_error_iff x y _).mpr ⟨h, rfl⟩).symm.trans hi
  · exact e

/-- Settles O11: fetched, the pair is a reserved word; executed, `exec_reservedCombo` for the five instructions. -/
theorem reservedComboTaken : Obligations.ReservedComboTaken := by
  refine ⟨rfl, fun s x hs hr heven hx hy hcombo => ?_, fun s =>
    ⟨exec_reservedCombo (i := .adv 7#3) rfl rfl s, exec_reservedCombo (i := .bst 7#3) rfl rfl s,
      exec_reservedCombo (i := .out 7#3) rfl rfl s, exec_reservedCombo (i := .bdv 7#3) rfl rfl s,
      exec_reservedCombo (i := .cdv 7#3) rfl rfl s⟩⟩
  rw [step_of_pair hs.1 hr heven hx hy, runPair_of_reserved ((isReservedPair_iff x _).mpr ⟨hcombo, rfl⟩),
    observeLeft0_setFault]
  rfl

/-! ## A step is the decoded instruction, and the pseudocode's (R92, R93, R95) -/

theorem runPair_of_decode {x y : Cell} {i : Instr} (h : decode x y = .ok i) (s : State) :
    runPair x y s = exec i s := by
  simp [runPair, h]

/-- Settles O5: the fetched pair runs as `exec` of its instruction, and the latch is `latchLeft0_eq`. -/
theorem stepRunsDecodedInstruction : Obligations.StepRunsDecodedInstruction := by
  intro s x y i hs hr heven hx hy hi
  obtain ⟨t, ht, -⟩ := exec_cases i s
  rw [step_of_pair hs.1 hr heven hx hy, runPair_of_decode hi, ht]
  exact congrArg Host.Outcome.next (latchLeft0_eq t)

theorem cellNat_of_getElem? {prog : List Cell} {a : Nat} {x : Cell} (h : prog[a]? = some x) :
    cellNat prog a = x.toNat := by
  rw [cellNat, List.getD_eq_getElem?_getD, h, Option.getD_some]

theorem comboNat_of_combo {s : State} {o : Cell} {k : Int} (h : combo s o = some k) : comboNat s o.toNat = k := by
  rcases combo_cases s o with ⟨hle, e⟩ | ⟨rfl, e⟩ | ⟨rfl, e⟩ | ⟨rfl, e⟩ | ⟨rfl, e⟩ <;> cases e.symm.trans h
  · exact if_pos hle
  · rfl
  · rfl
  · rfl

/-- The cell `out` appends, written with the remainder as a natural number. -/
theorem cellOf_mod8 (v : Int) : cellOf (mod8 v) = BitVec.ofNat 3 (v % 8).toNat := by
  rw [cellOf, ← BitVec.ofInt_natCast, mod8_eq_emod, Int.toNat_of_nonneg (Int.emod_nonneg v (by decide))]

/-- The pseudocode's test for a reserved word. -/
theorem isReservedPair_iff_toNat : ∀ x y : Cell,
    isReservedPair x y = true ↔ x.toNat ∈ [0, 2, 5, 6, 7] ∧ y.toNat = 7 := by decide

theorem pseudoStep_of_odd {s : State} (h : s.pc % 2 = 1) :
    pseudoStep s = s.setFault ⟨.misalignedFetch, s.pc, s.pc⟩ := if_pos h

section
variable {s : State} {x y : Cell} (heven : s.pc % 2 = 0) (hx : s.prog[s.pc]? = some x)
  (hy : s.prog[s.pc + 1]? = some y)
include heven hx hy

theorem pseudoStep_of_reserved (h : isReservedPair x y = true) :
    pseudoStep s = s.setFault ⟨.reservedCombo, s.pc, packWord x y⟩ := by
  have hres := (isReservedPair_iff_toNat x y).mp h
  have hword : (packWord x y : Int) = 8 * (x.toNat : Int) + 7 := by
    rw [packWord, hres.2]
    rfl
  unfold pseudoStep
  rw [cellNat_of_getElem? hx, cellNat_of_getElem? hy, if_neg (by omega), if_pos hres, hword]
  rfl

/-- Where the tape holds a whole instruction, `exec` answers the pseudocode's state: `exec_cases` arm by arm, each
chosen by the opcode cell. -/
theorem exec_eq_pseudoStep {i : Instr} (hi : decode x y = .ok i) : exec i s = .next (pseudoStep s) := by
  obtain ⟨t, ht, hc⟩ := exec_cases i s
  have hwf := decode_wellFormed hi
  obtain ⟨rfl, rfl⟩ := decode_cells hi
  have hres : ¬ (i.opcode.toCell.toNat ∈ [0, 2, 5, 6, 7] ∧ i.operand.toNat = 7) := by
    rw [← isReservedPair_iff_toNat, (wellFormed_iff i).mp hwf]
    decide
  rw [ht]
  unfold pseudoStep
  rw [cellNat_of_getElem? hx, cellNat_of_getElem? hy, if_neg (by omega), if_neg hres]
  rcases hc with ⟨k, hk, h0, ho, rfl⟩ | ⟨k, hk, h0, ho, rfl⟩ | ⟨k, hk, h0, ho, rfl⟩ | ⟨ho, rfl⟩ | ⟨v, hv, ho, rfl⟩ |
    ⟨ho, rfl⟩ | ⟨hA, ho, rfl⟩ | ⟨hA, ho, rfl⟩ | ⟨v, hv, ho, rfl⟩ | ⟨k, hk, hneg, ho, rfl⟩ | ⟨hoperand, hformat, rfl⟩
  iterate 3
    · rw [ho, comboNat_of_combo hk, tdiv_eq_tdiv]
      exact congrArg _ (if_neg (Int.not_lt.mpr h0)).symm
  · rw [ho]
    rfl
  · rw [ho, comboNat_of_combo hv, mod8_eq_emod]
    rfl
  · rw [ho]
    rfl
  · rw [ho]
    exact congrArg _ (if_pos hA).symm
  · rw [ho]
    exact congrArg _ (if_neg (not_not_intro hA)).symm
  · rw [ho, comboNat_of_combo hv, cellOf_mod8]
    rfl
  · rw [comboNat_of_combo hk]
    rcases ho with ho | ho | ho <;> rw [ho] <;> exact congrArg _ (if_pos hneg).symm
  · simp [Instr.wellFormed, hoperand, hformat] at hwf

end

/-- The pseudocode writes neither the transaction nor the latch, for no arm of the step does. -/
theorem fetchAndRun_eq_pseudoStep {s : State} (hlen : s.prog.length % 2 = 0) (hl : s.pc < s.prog.length) :
    fetchAndRun s = .next (pseudoStep s) ∧ (pseudoStep s).form = s.form ∧ (pseudoStep s).left0 = s.left0 := by
  rcases fetchAndRun_cases s with ⟨hodd, e⟩ | ⟨x, y, heven, hx, hy, e⟩ | ⟨heven, hend, -⟩
  · rw [e, pseudoStep_of_odd hodd]
    exact ⟨rfl, rfl, rfl⟩
  · cases hres : isReservedPair x y with
    | true =>
      rw [e, runPair_of_reserved hres, pseudoStep_of_reserved heven hx hy hres]
      exact ⟨rfl, rfl, rfl⟩
    | false =>
      have hi := decode_of_not_reserved hres
      have hexec := exec_eq_pseudoStep heven hx hy hi
      exact ⟨by rw [e, runPair_of_decode hi, hexec], (exec_keeps_load hexec).2⟩
  · omega

/-- Settles O7: the fetch and the instruction are the pseudocode's, and the latch is observed on its state. -/
theorem stepIsPseudocode : Obligations.StepIsPseudocode := by
  intro s hlen hs hr
  obtain ⟨hstep, hform, hleft0⟩ := fetchAndRun_eq_pseudoStep hlen hs.2
  rw [step_of_running hs hr, hstep, ← hform, ← hleft0]
  exact congrArg Host.Outcome.next (latchLeft0_eq _)

/-! ## What no step leaves (R104, R107) -/

theorem latchLeft0_regs (t : State) :
    (latchLeft0 t).A = t.A ∧ (latchLeft0 t).B = t.B ∧ (latchLeft0 t).C = t.C := by
  rw [latchLeft0_eq]
  exact ⟨rfl, rfl, rfl⟩

section
variable {P : Int → Prop} (htdiv : ∀ a k, P a → P (tdiv a k)) (hxor : ∀ a b, P a → P b → P (xorInt a b))
  (hsmall : ∀ v, 0 ≤ v → v ≤ 7 → P v)
include htdiv hxor hsmall

/-- A property of integers that holds of 0 to 7 and is kept by the quotient and by exclusive-or is kept in all three
registers: nothing else is ever written into one (10_state.md R23). -/
theorem exec_keeps_regs {i : Instr} {s t : State} (h : exec i s = .next t) (hs : P s.A ∧ P s.B ∧ P s.C) :
    P t.A ∧ P t.B ∧ P t.C := by
  obtain ⟨hA, hB, hC⟩ := hs
  obtain ⟨t', ht, hc⟩ := exec_cases i s
  obtain rfl : t' = t := Host.Outcome.next.inj (ht.symm.trans h)
  rcases hc with ⟨k, -, -, -, rfl⟩ | ⟨k, -, -, -, rfl⟩ | ⟨k, -, -, -, rfl⟩ | ⟨-, rfl⟩ | ⟨v, -, -, rfl⟩ | ⟨-, rfl⟩ |
    ⟨-, -, rfl⟩ | ⟨-, -, rfl⟩ | ⟨v, -, -, rfl⟩ | ⟨k, -, -, -, rfl⟩ | ⟨-, -, rfl⟩
  · exact ⟨htdiv _ _ hA, hB, hC⟩
  · exact ⟨hA, htdiv _ _ hA, hC⟩
  · exact ⟨hA, hB, htdiv _ _ hA⟩
  · exact ⟨hA, hxor _ _ hB (hsmall _ (lit_nonneg _) (Int.ofNat_le.mpr (cell_toNat_le _))), hC⟩
  · exact ⟨hA, hsmall _ (mod8_nonneg v) (mod8_le v), hC⟩
  · exact ⟨hA, hxor _ _ hB hC, hC⟩
  all_goals exact ⟨hA, hB, hC⟩

theorem step_keeps_regs {s t : State} (h : step s = .next t) (hs : P s.A ∧ P s.B ∧ P s.C) :
    P t.A ∧ P t.B ∧ P t.C := by
  obtain ⟨-, -, -, u, rfl, hu⟩ := step_next_cases h
  obtain ⟨hA, hB, hC⟩ := latchLeft0_regs u
  rw [hA, hB, hC]
  rcases hu with ⟨-, rfl⟩ | ⟨x, y, -, -, -, ⟨-, rfl⟩ | ⟨i, -, hexec⟩⟩
  · exact hs
  · exact hs
  · exact exec_keeps_regs htdiv hxor hsmall hexec hs

end

theorem step_keeps_nonneg {s t : State} (hs : RegsNonNeg s) (h : step s = .next t) : RegsNonNeg t :=
  step_keeps_regs (P := (0 ≤ ·)) (fun _ k ha => tdiv_nonneg ha k) (fun _ _ => xorInt_nonneg) (fun _ hv _ => hv) h hs

/-- Settles O35: the recorded exponent of `NegativeExponent` is a negative register. -/
theorem nonNegativityPreserved : Obligations.NonNegativityPreserved := by
  refine fun s t hs h => ⟨step_keeps_nonneg hs h, fun r hr hcause => ?_⟩
  obtain ⟨hA, hB, hC⟩ := hs
  obtain ⟨-, -, ⟨-, rfl⟩ | ⟨x, y, -, -, -, -, rfl⟩ | ⟨-, k, hneg, hk, -⟩⟩ := step_fault_cases h hr
  · cases hcause
  · cases hcause
  · rcases hk with rfl | rfl | rfl
    · exact absurd hneg (Int.not_lt.mpr hA)
    · exact absurd hneg (Int.not_lt.mpr hB)
    · exact absurd hneg (Int.not_lt.mpr hC)

/-- Settles O36: a finite width's range holds 0 to 7, everything between 0 and a value it holds, and the exclusive-or of
any two. -/
theorem widthClosure : Obligations.WidthClosure := by
  intro x s t hs h
  cases x with
  | unbounded => exact ⟨rfl, rfl, rfl⟩
  | finite n hn =>
    refine step_keeps_regs (P := fun v => (XLen.finite n hn).fits v = true) ?_ ?_ ?_ h hs <;>
      simp only [fits_finite_iff]
    · intro a k ha
      have := tdiv_between a k
      omega
    · exact fun a b => xorInt_range
    · intro v hlo hhi
      have hpow : (2 : Int) ^ 3 ≤ 2 ^ (n - 1) := pow_le_pow_right₀ (by decide) (by omega)
      omega

/-! ## Runs and the executor's fuel (R97, R98) -/

theorem runUntilStop_of_stopReason {s : State} {f : Fault} (h : stopReason s = some f) (n : Nat) :
    runUntilStop n s = .stopped f s := by
  cases n <;> simp [runUntilStop, h]

theorem runUntilStop_zero_of_next {s t : State} (h : step s = .next t) : runUntilStop 0 s = .outOfFuel s := by
  cases hs : stopReason s with
  | some f => cases h.symm.trans (step_of_stopReason hs)
  | none => simp [runUntilStop, hs]

theorem runUntilStop_succ_of_next {s t : State} (h : step s = .next t) (n : Nat) :
    runUntilStop (n + 1) s = runUntilStop n t := by
  cases hs : stopReason s with
  | some f => cases h.symm.trans (step_of_stopReason hs)
  | none => simp [runUntilStop, hs, h]

theorem runUntilStop_succ_of_fault {s : State} {f : Fault} (h : step s = .fault f) (n : Nat) :
    runUntilStop (n + 1) s = .stopped f s := by
  cases hs : stopReason s with
  | some g =>
    cases h.symm.trans (step_of_stopReason hs)
    exact runUntilStop_of_stopReason hs _
  | none => simp [runUntilStop, hs, h]

/-- A run that stops has made a step at a time to a state without one, and any greater fuel takes it there. -/
theorem runUntilStop_stopped {n : Nat} {s t : State} {f : Fault} (h : runUntilStop n s = .stopped f t) :
    (∀ m, n ≤ m → runUntilStop m s = .stopped f t) ∧ step t = .fault f := by
  induction n generalizing s with
  | zero =>
    cases hs : stopReason s with
    | some g =>
      cases (runUntilStop_of_stopReason hs 0).symm.trans h
      exact ⟨fun m _ => runUntilStop_of_stopReason hs m, step_of_stopReason hs⟩
    | none => simp [runUntilStop, hs] at h
  | succ n ih =>
    have hpos {m : Nat} (hm : n + 1 ≤ m) : ∃ k, m = k + 1 ∧ n ≤ k := ⟨m - 1, by omega, by omega⟩
    cases hstep : step s with
    | next u =>
      rw [runUntilStop_succ_of_next hstep] at h
      obtain ⟨hmore, hstop⟩ := ih h
      refine ⟨fun m hm => ?_, hstop⟩
      obtain ⟨k, rfl, hk⟩ := hpos hm
      rw [runUntilStop_succ_of_next hstep, hmore k hk]
    | fault g =>
      cases (runUntilStop_succ_of_fault hstep n).symm.trans h
      refine ⟨fun m hm => ?_, hstep⟩
      obtain ⟨k, rfl, -⟩ := hpos hm
      exact runUntilStop_succ_of_fault hstep k
    | refused r => exact absurd hstep (step_ne_refused s r)

/-- Settles O47: `runUntilStop_stopped`, by induction on the fuel used. -/
theorem fuelChangesNoResult : Obligations.FuelChangesNoResult := by
  intro n m s t f h hm
  obtain ⟨hmore, hstop⟩ := runUntilStop_stopped h
  exact ⟨hmore m hm, hstop⟩

/-! ## A step without a fault (R93, R95) -/

/-- A step that leaves no fault ran the instruction at `pc`. -/
theorem step_of_noFault {s t : State} (h : step s = .next t) (hf : t.fault = none) :
    ∃ i u, s.prog[s.pc]? = some i.opcode.toCell ∧ exec i s = .next u ∧ u.fault = none ∧ t = latchLeft0 u := by
  obtain ⟨-, -, -, u, rfl, ⟨-, rfl⟩ | ⟨x, y, -, hx, -, ⟨-, rfl⟩ | ⟨i, hi, hexec⟩⟩⟩ := step_next_cases h <;>
    rw [latchLeft0_fault] at hf
  · cases hf
  · cases hf
  · obtain ⟨rfl, -⟩ := decode_cells hi
    exact ⟨i, u, hx, hexec, hf, rfl⟩

/-- A step that takes no jump and leaves no fault advances the `pc` by 2. -/
theorem step_pc_of_untaken {s t : State} (h : step s = .next t) (hf : t.fault = none)
    (huntaken : s.prog[s.pc]? = some 3#3 → s.A = 0) : t.pc = s.pc + 2 := by
  obtain ⟨i, u, hx, hexec, hu, rfl⟩ := step_of_noFault h hf
  rw [latchLeft0_pc, exec_pc hexec hu, if_neg]
  rintro ⟨ho, hA⟩
  rw [ho] at hx
  exact hA (huntaken hx)

theorem exec_out_length {i : Instr} {s t : State} (h : exec i s = .next t) (hf : t.fault = none) :
    t.out.length = s.out.length + if i.opcode = .out then 1 else 0 := by
  rcases exec_write_cases h with ⟨v, ho, rfl⟩ | ⟨v, ho, rfl⟩ | ⟨v, ho, rfl⟩ | ⟨d, ho, rfl⟩ | ⟨ho, rfl⟩ | ⟨r, -, rfl⟩
  · simp [ho]
  · rcases ho with ho | ho | ho | ho <;> simp [ho]
  · simp [ho]
  · simp [ho]
  · simp [ho]
  · cases hf

theorem toCell_eq_five_iff (op : Opcode) : op.toCell = 5#3 ↔ op = .out := by
  cases op <;> decide

/-- A step that leaves no fault appends one cell where the opcode at `pc` is 5, and none elsewhere. -/
theorem step_out_length {s t : State} (h : step s = .next t) (hf : t.fault = none) :
    t.out.length = s.out.length + if s.prog[s.pc]? = some 5#3 then 1 else 0 := by
  obtain ⟨i, u, hx, hexec, hu, rfl⟩ := step_of_noFault h hf
  rw [latchLeft0_out, exec_out_length hexec hu, hx]
  simp only [Option.some.injEq, toCell_eq_five_iff]

/-! ## Runs in which no jump is taken (R105) -/

/-- The count of `out` pairs from an index on, one pair at a time. -/
theorem outPairs_drop {prog : List Cell} {a : Nat} (h : a + 1 < prog.length) :
    outPairs (prog.drop a) = (if prog[a]? = some 5#3 then 1 else 0) + outPairs (prog.drop (a + 2)) := by
  rw [List.drop_eq_getElem_cons (by omega), List.drop_eq_getElem_cons h, List.getElem?_eq_getElem (by omega)]
  simp [outPairs]

/-- From `s` on the run takes no jump, every `jnz` it reaches having `A = 0`, and ends in no fault. -/
structure State.Untaken (s : State) : Prop where
  jumps : ∀ n t, runUntilStop n s = .outOfFuel t → t.prog[t.pc]? = some 3#3 → t.A = 0
  noFault : ∀ n r t, runUntilStop n s ≠ .stopped (.faulted r) t

theorem State.Untaken.of_step {s t : State} (hs : s.Untaken) (h : step s = .next t) : t.Untaken where
  jumps n w hw := hs.jumps (n + 1) w ((runUntilStop_succ_of_next h n).trans hw)
  noFault n r w hw := hs.noFault (n + 1) r w ((runUntilStop_succ_of_next h n).trans hw)

theorem State.Untaken.step_fault {s t : State} (hs : s.Untaken) (h : step s = .next t) : t.fault = none := by
  cases hf : t.fault with
  | none => rfl
  | some r =>
    have hstop : stopReason t = some (.faulted r) := by simp [stopReason, hf]
    exact absurd ((runUntilStop_succ_of_next h 0).trans (runUntilStop_of_stopReason hstop 0)) (hs.noFault 1 r t)

theorem State.Untaken.step_pc {s t : State} (hs : s.Untaken) (h : step s = .next t) : t.pc = s.pc + 2 :=
  step_pc_of_untaken h (hs.step_fault h) (hs.jumps 0 s (runUntilStop_zero_of_next h))

/-- With `k` pairs left of a tape of even length such a run visits them in order, one a step, and halts at the end, with
one cell appended for each that is an `out`. -/
theorem State.Untaken.run {k : Nat} {s : State} (hs : s.Untaken) (hf : s.fault = none) (hform : s.form = .run)
    (heven : s.pc % 2 = 0) (hlen : s.prog.length = s.pc + 2 * k) :
    (∀ n, n < k → ∃ t, runUntilStop n s = .outOfFuel t ∧ t.pc = s.pc + 2 * n) ∧
    ∃ t, runUntilStop k s = .stopped .halted t ∧ t.pc = s.prog.length ∧ t.fault = none ∧
      t.out.length = s.out.length + outPairs (s.prog.drop s.pc) := by
  induction k generalizing s with
  | zero =>
    refine ⟨fun n hn => absurd hn (Nat.not_lt_zero n), s, ?_, by omega, hf, ?_⟩
    · exact runUntilStop_of_stopReason (stopReason_of_halted ⟨hf, by omega⟩) 0
    · rw [List.drop_eq_nil_of_le (by omega)]
      rfl
  | succ k ih =>
    obtain ⟨u, hu⟩ : ∃ u, step s = .next u := by
      rcases step_cases s with ⟨r, e, -⟩ | ⟨⟨-, e⟩, -⟩ | ⟨-, ⟨e, -⟩, -⟩ | ⟨-, -, e⟩ | ⟨e, -⟩
      · cases hf.symm.trans e
      · omega
      · cases hform.symm.trans e
      · exact e
      · omega
    have hpc := hs.step_pc hu
    have htape := step_keeps_tape hu
    have hfault := hs.step_fault hu
    obtain ⟨hbefore, t, hrun, hend, hft, hout⟩ :=
      ih (hs.of_step hu) hfault ((step_form hu).trans hform) (by omega) (by rw [htape]; omega)
    refine ⟨fun n hn => ?_, t, ?_, ?_, hft, ?_⟩
    · cases n with
      | zero => exact ⟨s, runUntilStop_zero_of_next hu, rfl⟩
      | succ n =>
        obtain ⟨w, hw, hwpc⟩ := hbefore n (by omega)
        exact ⟨w, (runUntilStop_succ_of_next hu n).trans hw, by omega⟩
    · exact (runUntilStop_succ_of_next hu k).trans hrun
    · rw [hend, htape]
    · rw [hout, step_out_length hu hfault, htape, hpc, outPairs_drop (a := s.pc) (by omega), Nat.add_assoc]

/-- What a load leaves, beside `load_pc` and `load_out`. -/
theorem load_start {x : XLen} {f : Form} {cfg : HostConfig} {s : State} (h : load x f cfg = .ok s) :
    Memory.wf s.prog ∧ s.fault = none ∧ s.form = f := by
  obtain ⟨hok, rfl⟩ := (load_eq_ok_iff x f cfg s).mp h
  obtain ⟨heven, -, hres, -⟩ := (configError_eq_none_iff x cfg).mp hok
  have hlen : (tapeOf cfg.prog).length = cfg.prog.length := List.length_map _
  refine ⟨?_, rfl, rfl⟩
  simp [Memory.wf, tapeWellFormed, hres, hlen, heven]

/-- Settles O55: `State.Untaken.run` from the load, with every pair of the tape left. -/
theorem untakenJumpsRunHalts : Obligations.UntakenJumpsRunHalts := by
  intro x cfg s hload hjumps hnoFault
  obtain ⟨htape, hf, hform⟩ := load_start hload
  have heven := Memory.wf_even htape
  have hpc := load_pc hload
  have hs : s.Untaken := ⟨hjumps, hnoFault⟩
  simpa [hpc, load_out hload] using hs.run (k := s.prog.length / 2) hf hform (by omega) (by omega)

/-! ## Straight-line runs (R105, R107) -/

/-- A tape without `jnz` has none at an even index. -/
theorem noJnzPair_getElem? : ∀ {prog : List Cell} {a : Nat}, noJnzPair prog = true → a % 2 = 0 → a + 1 < prog.length →
    prog[a]? ≠ some 3#3
  | [], _, _, _, hl => by simp at hl
  | [_], _, _, _, hl => by simp at hl
  | o :: p :: rest, 0, h, _, _ => by
    simp only [noJnzPair, Bool.and_eq_true, bne_iff_ne] at h
    simpa using h.1
  | o :: p :: rest, 1, _, ha, _ => by omega
  | o :: p :: rest, a + 2, h, ha, hl => by
    simp only [noJnzPair, Bool.and_eq_true] at h
    simp only [List.length_cons] at hl
    simpa using noJnzPair_getElem? (a := a) h.2 (by omega) (by omega)

/-- A machine that can neither jump nor fault: over a well-formed tape without `jnz`, aligned, its registers not
negative. -/
structure State.StraightLine (s : State) : Prop where
  tape : Memory.wf s.prog
  noJnz : noJnzPair s.prog = true
  aligned : s.pc % 2 = 0
  regs : RegsNonNeg s
  fault : s.fault = none

theorem State.StraightLine.not_jnz {s : State} (hs : s.StraightLine) : s.prog[s.pc]? ≠ some 3#3 := by
  intro h
  have hlt := (List.getElem?_eq_some_iff.mp h).1
  have heven := Memory.wf_even hs.tape
  have haligned := hs.aligned
  exact noJnzPair_getElem? hs.noJnz haligned (by omega) h

theorem State.StraightLine.step_fault {s t : State} (hs : s.StraightLine) (h : step s = .next t) : t.fault = none := by
  cases hf : t.fault with
  | none => rfl
  | some r =>
    have haligned := hs.aligned
    have hnonneg := (nonNegativityPreserved s t hs.regs h).2 r hf
    obtain ⟨-, -, ⟨hodd, -⟩ | ⟨x, y, he, hx, hy, hres, -⟩ | ⟨-, k, -, -, rfl⟩⟩ := step_fault_cases h hf
    · omega
    · cases hres.symm.trans (Memory.wf_pair hs.tape he hx hy)
    · exact absurd rfl hnonneg

theorem State.StraightLine.of_step {s t : State} (h : step s = .next t) (hs : s.StraightLine) : t.StraightLine where
  tape := step_keeps_memory_wf h hs.tape
  noJnz := step_keeps_tape h ▸ hs.noJnz
  aligned := by
    have haligned := hs.aligned
    rw [step_pc_of_untaken h (hs.step_fault h) (absurd · hs.not_jnz)]
    omega
  regs := step_keeps_nonneg hs.regs h
  fault := hs.step_fault h

theorem State.StraightLine.untaken {s : State} (hs : s.StraightLine) : s.Untaken := by
  have hkeep (n : Nat) : (runUntilStop n s).state.StraightLine :=
    runUntilStop_keeps State.StraightLine.of_step n hs
  refine ⟨fun n t h hjnz => ?_, fun n r t h => ?_⟩
  · have ht := hkeep n
    rw [h] at ht
    exact absurd hjnz ht.not_jnz
  · have ht := hkeep n
    rw [h] at ht
    obtain ⟨-, hfaulted, -⟩ := stopsExactlyWhenNotRunning t (Memory.wf_even ht.tape)
    cases ht.fault.symm.trans ((hfaulted r).mp (runUntilStop_stopped h).2)

/-- Settles O49: a straight-line machine takes no jump and meets no fault, so O55's law applies. -/
theorem straightLineRunHalts : Obligations.StraightLineRunHalts := by
  intro x cfg s hload hregs hjnz
  obtain ⟨htape, hf, -⟩ := load_start hload
  have hs : s.StraightLine := ⟨htape, hjnz, by rw [load_pc hload], hregs, hf⟩
  exact (untakenJumpsRunHalts x cfg s hload hs.untaken.jumps hs.untaken.noFault).2

end Sys2Proof.Machine
end

section
/-!
SUPPORT AND PROOFS. The division family of 41_divide.md: what `divideInto`, and so `adv`, `bdv` and `cdv`, answers on a
non-negative exponent (R110 to R112, R114) and on a negative one (R113).
-/

namespace Sys2Proof.Machine

/-! ## The shared division -/

theorem divideInto_of_nonneg {c : Cell} {s : State} {k : Int} (op : Opcode) (dst : Fin 3) (hk : combo s c = some k)
    (h0 : 0 ≤ k) : divideInto op dst c s = .next (writeReg s dst (Int.tdiv s.A (2 ^ k.toNat))).advance := by
  rw [← tdiv_eq_tdiv]
  exact (withCombo_of_some hk).trans (if_neg (Int.not_lt.mpr h0))

theorem divideInto_of_neg {c : Cell} {s : State} {k : Int} (op : Opcode) (dst : Fin 3) (hk : combo s c = some k)
    (hneg : k < 0) : divideInto op dst c s = .next (s.setFault ⟨.negativeExponent, s.pc, k⟩) :=
  (withCombo_of_some hk).trans (if_pos hneg)

/-- Operand 0 divides by one: the destination receives `A` itself (R114). -/
theorem divideInto_zero (op : Opcode) (dst : Fin 3) (s : State) :
    divideInto op dst 0#3 s = .next (writeReg s dst s.A).advance := by
  have hquot : Int.tdiv s.A (2 ^ (0 : Int).toNat) = s.A := Int.tdiv_one s.A
  rw [divideInto_of_nonneg op dst (k := 0) rfl le_rfl, hquot]

/-- A non-negative integer is less than two to itself, so as its own exponent it leaves no quotient (R110). -/
theorem tdiv_two_pow_self {a : Int} (h : 0 ≤ a) : Int.tdiv a (2 ^ a.toNat) = 0 := by
  have hlt : a.toNat < 2 ^ a.toNat := Nat.lt_two_pow_self
  rw [← tdiv_eq_tdiv]
  exact tdiv_eq_zero_of_natAbs_lt (by omega)

/-! ## The destinations `A`, `B`, `C` (R110 to R112, R114) -/

section
variable {c : Cell} {s : State} {k : Int} (hk : combo s c = some k) (h0 : 0 ≤ k)
include hk h0

theorem exec_adv_of_nonneg : exec (.adv c) s = .next { s with A := Int.tdiv s.A (2 ^ k.toNat), pc := s.pc + 2 } :=
  divideInto_of_nonneg .adv 0 hk h0

theorem exec_bdv_of_nonneg : exec (.bdv c) s = .next { s with B := Int.tdiv s.A (2 ^ k.toNat), pc := s.pc + 2 } :=
  divideInto_of_nonneg .bdv 1 hk h0

theorem exec_cdv_of_nonneg : exec (.cdv c) s = .next { s with C := Int.tdiv s.A (2 ^ k.toNat), pc := s.pc + 2 } :=
  divideInto_of_nonneg .cdv 2 hk h0

end

/-- Settles O14: `exec_adv_of_nonneg`; as its own exponent `A` leaves 0. -/
theorem advDividesIntoA : Obligations.AdvDividesIntoA := by
  refine ⟨fun _ _ _ => exec_adv_of_nonneg, divideInto_zero .adv 0, fun s hA => ?_, fun s hA => ?_⟩
  · rw [← tdiv_two_pow_self hA]
    exact exec_adv_of_nonneg rfl hA
  · have hquot : Int.tdiv s.A (2 ^ (1 : Int).toNat) = 364 := by rw [hA]; rfl
    rw [← hquot]
    exact exec_adv_of_nonneg rfl (by decide)

/-- Settles O15: `exec_bdv_of_nonneg`; operand 5 is the old `B`. -/
theorem bdvDividesIntoB : Obligations.BdvDividesIntoB := by
  refine ⟨fun _ _ _ => exec_bdv_of_nonneg, divideInto_zero .bdv 1, fun _ => exec_bdv_of_nonneg rfl, fun s hA hB => ?_⟩
  have hquot : Int.tdiv s.A (2 ^ s.B.toNat) = 125 := by rw [hA, hB]; rfl
  rw [← hquot]
  exact exec_bdv_of_nonneg rfl (by rw [hB]; decide)

/-- Settles O16: `exec_cdv_of_nonneg`; operand 6 is the old `C`. -/
theorem cdvDividesIntoC : Obligations.CdvDividesIntoC := by
  refine ⟨fun _ _ _ => exec_cdv_of_nonneg, divideInto_zero .cdv 2, fun _ => exec_cdv_of_nonneg rfl, fun s hA hC => ?_⟩
  have hquot : Int.tdiv s.A (2 ^ s.C.toNat) = 16 := by rw [hA, hC]; rfl
  rw [← hquot]
  exact exec_cdv_of_nonneg rfl (by rw [hC]; decide)

/-! ## The negative exponent (R113) -/

/-- A literal is not negative and operand 7 has no value, so a negative combo operand names a register. -/
theorem combo_neg_operand {c : Cell} {s : State} {k : Int} (hk : combo s c = some k) (hneg : k < 0) :
    c = 4#3 ∧ k = s.A ∨ c = 5#3 ∧ k = s.B ∨ c = 6#3 ∧ k = s.C := by
  rcases combo_cases s c with ⟨-, e⟩ | ⟨hc, e⟩ | ⟨hc, e⟩ | ⟨hc, e⟩ | ⟨-, e⟩ <;> cases e.symm.trans hk
  · omega
  · exact .inl ⟨hc, rfl⟩
  · exact .inr (.inl ⟨hc, rfl⟩)
  · exact .inr (.inr ⟨hc, rfl⟩)

/-- Settles O12: `combo_neg_operand`, and `divideInto_of_neg` for each destination. -/
theorem negativeExponentTaken : Obligations.NegativeExponentTaken :=
  ⟨rfl, fun _ _ _ hk hneg => ⟨combo_neg_operand hk hneg, divideInto_of_neg .adv 0 hk hneg,
    divideInto_of_neg .bdv 1 hk hneg, divideInto_of_neg .cdv 2 hk hneg⟩⟩

end Sys2Proof.Machine
end

section
/-!
SUPPORT AND PROOFS. The bitwise family of 42_bitwise.md: the corner cases of exclusive-or (its zero, its sign, its range
at a width), and what `bxl` (R120), `bst` (R121) and `bxc` (R122) answer.
-/

namespace Sys2Proof.Machine

/-! ## Exclusive-or with zero and with itself -/

theorem xorInt_zero (a : Int) : xorInt a 0 = a := by
  cases a with
  | ofNat m => exact congrArg Int.ofNat (Nat.xor_zero m)
  | negSucc m => exact congrArg Int.negSucc (Nat.xor_zero m)

theorem zero_xorInt (b : Int) : xorInt 0 b = b :=
  (xorInt_comm 0 b).trans (xorInt_zero b)

theorem xorInt_self (a : Int) : xorInt a a = 0 :=
  calc xorInt a a = xorInt (xorInt 0 a) a := by rw [zero_xorInt]
    _ = 0 := xorInt_xorInt_cancel 0 a

/-! ## The sign and the range of exclusive-or (R104, R107) -/

/-- Exclusive-or is negative exactly when one operand is and the other is not: the four sign cases of its definition. -/
theorem xorInt_neg_iff (a b : Int) : xorInt a b < 0 ↔ (a < 0 ∧ 0 ≤ b ∨ 0 ≤ a ∧ b < 0) := by
  match a, b with
  | .ofNat m, .ofNat n =>
    simp only [xorInt, Int.ofNat_eq_natCast]
    omega
  | .ofNat m, .negSucc n => simp [xorInt]
  | .negSucc m, .ofNat n => simp [xorInt]
  | .negSucc m, .negSucc n => simp [xorInt]

theorem xorInt_lit_neg_iff (b : Int) (l : Cell) : xorInt b (lit l) < 0 ↔ b < 0 := by
  have := lit_nonneg l
  rw [xorInt_neg_iff]
  omega

theorem fits_xorInt {x : XLen} {a b : Int} (ha : x.fits a = true) (hb : x.fits b = true) :
    x.fits (xorInt a b) = true := by
  cases x with
  | unbounded => rfl
  | finite n hn =>
    rw [fits_finite_iff] at ha hb ⊢
    exact xorInt_range ha hb

/-- A width has at least 64 bits, so it holds every literal. -/
theorem fits_lit (x : XLen) (l : Cell) : x.fits (lit l) = true := by
  cases x with
  | unbounded => rfl
  | finite n hn =>
    have hpow : (2 : Int) ^ 3 ≤ 2 ^ (n - 1) := pow_le_pow_right₀ (by decide) (by omega)
    have hle := cell_toNat_le l
    rw [fits_finite_iff, lit_eq_natCast]
    omega

/-! ## `bxl` (R120) -/

theorem exec_bxl (l : Cell) (s : State) :
    exec (.bxl l) s = .next { s with B := xorInt s.B (lit l), pc := s.pc + 2 } := rfl

/-- Settles O17: a literal is a non-negative integer below 8 that every width holds, so exclusive-or with it keeps the
sign, the quotient by 8 and the range. -/
theorem bxlXorsLiteral : Obligations.BxlXorsLiteral := by
  refine ⟨fun l => decode_encode (i := .bxl l) rfl, exec_bxl, xorInt_zero, fun l b => ⟨xorInt_xorInt_cancel b (lit l),
    xorInt_lit_neg_iff b l, ?_, fun x hb => fits_xorInt hb (fits_lit x l)⟩, rfl, rfl, fun s hB => ?_⟩
  · rw [Int.fdiv_eq_ediv_of_nonneg _ (by decide), Int.fdiv_eq_ediv_of_nonneg _ (by decide), xorInt_lit_ediv_eight]
  · rw [exec_bxl, hB]
    rfl

/-! ## `bst` (R121) -/

theorem exec_bst_of_combo {c : Cell} {s : State} {v : Int} (hv : combo s c = some v) :
    exec (.bst c) s = .next { s with B := v % 8, pc := s.pc + 2 } := by
  rw [← mod8_eq_emod]
  exact withCombo_of_some hv

theorem combo_of_toNat_le {c : Cell} (h : c.toNat ≤ 3) (s : State) : combo s c = some (c.toNat : Int) :=
  if_pos h

/-- Settles O18: `exec_bst_of_combo` at each value of the combo operand, and `exec_reservedCombo` for operand 7. -/
theorem bstStoresModuloEight : Obligations.BstStoresModuloEight := by
  refine ⟨fun c hc => decode_encode (i := .bst c) (bne_iff_ne.mpr hc),
    fun c s v hv => ⟨exec_bst_of_combo hv, by omega, by omega⟩, fun c s hc => ?_, fun s => exec_bst_of_combo rfl,
    exec_reservedCombo (i := .bst 7#3) rfl rfl, fun s hC => exec_bst_of_combo (c := 6#3) (v := -3) (congrArg some hC),
    fun s hA => exec_bst_of_combo (c := 4#3) (v := -1) (congrArg some hA),
    fun s hA => exec_bst_of_combo (c := 4#3) (v := 2024) (congrArg some hA),
    fun s hC => exec_bst_of_combo (c := 6#3) (v := 9) (congrArg some hC)⟩
  have hsmall : (c.toNat : Int) % 8 = c.toNat := by omega
  rw [exec_bst_of_combo (combo_of_toNat_le hc s), hsmall]

/-! ## `bxc` (R122) -/

theorem exec_bxc (u : Cell) (s : State) :
    exec (.bxc u) s = .next { s with B := xorInt s.B s.C, pc := s.pc + 2 } := rfl

/-- Settles O19: the operand cell is in no state `exec_bxc` answers; the corner cases are the laws of exclusive-or. -/
theorem bxcXorsRegisters : Obligations.BxcXorsRegisters := by
  refine ⟨fun u => decode_encode (i := .bxc u) rfl, exec_bxc,
    fun a b => ⟨xorInt_zero a, xorInt_self a, zero_xorInt b, xorInt_neg_iff a b, xorInt_nonneg⟩,
    fun _ _ _ => fits_xorInt, by decide, by decide, by decide, fun u s hB hC => ?_⟩
  rw [exec_bxc, hB, hC]
  rfl

end Sys2Proof.Machine
end

section
/-!
SUPPORT AND PROOFS. Control transfer of 43_control.md: what `jnz` answers, taken and not taken (R130, R131), and the jump
to its own index, which repeats for ever (R130, 40_fetch_dispatch.md R98).
-/

namespace Sys2Proof.Machine

/-! ## `jnz` (R130, R131) -/

theorem decode_jnz (l : Cell) : decode 3#3 l = .ok (.jnz l) :=
  decode_encode (i := .jnz l) rfl

theorem exec_jnz_taken {s : State} (h : s.A ≠ 0) (l : Cell) : exec (.jnz l) s = .next { s with pc := l.toNat } :=
  execJnz_of_ne h

theorem exec_jnz_untaken {s : State} (h : s.A = 0) (l : Cell) : exec (.jnz l) s = .next { s with pc := s.pc + 2 } :=
  execJnz_of_eq h

/-- Settles O20: `exec_jnz_taken` and `exec_jnz_untaken`; a target is a cell's value, so at most 7. -/
theorem jnzJumpsWhenANonzero : Obligations.JnzJumpsWhenANonzero := by
  refine ⟨decode_jnz, fun l s hA => exec_jnz_taken hA l, fun l s hA => exec_jnz_untaken hA l, fun l s t hA h => ?_⟩
  cases (exec_jnz_taken hA l).symm.trans h
  exact cell_toNat_le l

/-! ## The jump to its own index (R130, R98; decision D20) -/

/-- The full run does not use the latch (10_state.md R34). -/
theorem latchLeft0_of_run {t : State} (h : t.form = .run) : latchLeft0 t = t := by
  simp [latchLeft0, h]

/-- In a full run the step at a taken `jnz` writes the `pc` and nothing else. -/
theorem step_of_jnz_taken {s : State} {l : Cell} (hf : s.fault = none) (hform : s.form = .run) (hA : s.A ≠ 0)
    (heven : s.pc % 2 = 0) (hx : s.prog[s.pc]? = some 3#3) (hy : s.prog[s.pc + 1]? = some l) :
    step s = .next { s with pc := l.toNat } := by
  have hr : ¬ s.Returned := by simp [hform]
  rw [step_of_pair hf hr heven hx hy, runPair_of_decode (decode_jnz l), exec_jnz_taken hA]
  exact congrArg Host.Outcome.next (latchLeft0_of_run hform)

/-- A state that steps to itself is where the run still stands after any number of steps. -/
theorem runUntilStop_of_step_self {s : State} (h : step s = .next s) (n : Nat) : runUntilStop n s = .outOfFuel s := by
  induction n with
  | zero => exact runUntilStop_zero_of_next h
  | succ n ih => exact (runUntilStop_succ_of_next h n).trans ih

/-- Settles O50: with its own index for a target the jump writes the `pc` it finds, so the state steps to itself. -/
theorem jnzToItselfNeverStops : Obligations.JnzToItselfNeverStops := by
  intro s l n hf hform hA hpc heven hx hy
  have hself : step s = .next s := by
    rw [step_of_jnz_taken hf hform hA heven hx hy, ← hpc]
  exact runUntilStop_of_step_self hself n

end Sys2Proof.Machine
end

section
/-!
SUPPORT AND PROOFS. The output of 44_output.md: what `out` answers on a combo value and on the reserved operand (R140).
-/

namespace Sys2Proof.Machine

/-! ## `out` (R140) -/

/-- A cell is the one `out` appends as soon as its value is the remainder. -/
theorem cellOf_mod8_eq_of_toNat {v : Int} {d : Cell} (hd : (d.toNat : Int) = v % 8) : cellOf (mod8 v) = d := by
  have hval : ((cellOf (mod8 v)).toNat : Int) = d.toNat := by
    rw [cellOf_toNat, mod8_eq_emod, Int.emod_emod, hd]
  exact BitVec.eq_of_toNat_eq (Int.ofNat_inj.mp hval)

theorem exec_out_of_combo {c d : Cell} {s : State} {v : Int} (hv : combo s c = some v) (hd : (d.toNat : Int) = v % 8) :
    exec (.out c) s = .next { s with out := s.out ++ [d], pc := s.pc + 2 } := by
  rw [← cellOf_mod8_eq_of_toNat hd]
  exact withCombo_of_some hv

theorem exists_cell_toNat_eq_emod (v : Int) : ∃ d : Cell, (d.toNat : Int) = v % 8 :=
  ⟨cellOf v, cellOf_toNat v⟩

/-- On every operand with a value `out` appends one cell, whatever the value and whatever the fault record. -/
theorem exec_out_length_of_ne_seven {c : Cell} {s t : State} (hc : c ≠ 7#3) (h : exec (.out c) s = .next t) :
    t.out.length = s.out.length + 1 := by
  obtain ⟨v, hv⟩ := Option.ne_none_iff_exists'.mp (mt (combo_eq_none_iff s c).mp hc)
  obtain ⟨d, hd⟩ := exists_cell_toNat_eq_emod v
  cases (exec_out_of_combo hv hd).symm.trans h
  exact List.length_append

/-- Settles O21: `exec_out_of_combo` at each value of the combo operand, and `exec_reservedCombo` for operand 7. -/
theorem outAppendsModuloEight : Obligations.OutAppendsModuloEight := by
  have hA : ∀ {s : State} {a : Int} {d : Cell}, s.A = a → (d.toNat : Int) = a % 8 →
      exec (.out 4#3) s = .next { s with out := s.out ++ [d], pc := s.pc + 2 } :=
    fun h => exec_out_of_combo (congrArg some h)
  refine ⟨fun c hc => decode_encode (i := .out c) (bne_iff_ne.mpr hc), fun c s v hv => ?_, fun c s hc => ?_,
    fun _ _ _ => exec_out_length_of_ne_seven, exec_reservedCombo (i := .out 7#3) rfl rfl, fun _ h => hA h (by decide),
    fun _ h => hA h (by decide), fun _ h => hA h (by decide), fun _ h => hA h (by decide)⟩
  · obtain ⟨d, hd⟩ := exists_cell_toNat_eq_emod v
    exact ⟨d, hd, exec_out_of_combo hv hd⟩
  · have hsmall : (c.toNat : Int) = (c.toNat : Int) % 8 := by omega
    exact exec_out_of_combo (combo_of_toNat_le hc s) hsmall

end Sys2Proof.Machine
end

section
/-!
SUPPORT AND PROOFS. The iteration form of 45_iteration_mode.md: the latch of a step (R152), the result of `RunIteration`
and its digit (R151 to R153), and the host's solver that drives it (R161, R163).
-/

namespace Sys2Proof.Machine

/-! ## The latch (R152, decision D11) -/

/-- Before the latch is observed a step has written neither the latch nor the transaction. -/
theorem step_eq_latchLeft0 {s t : State} (h : step s = .next t) :
    ∃ u, t = latchLeft0 u ∧ u.left0 = s.left0 ∧ u.form = s.form := by
  obtain ⟨-, -, -, u, rfl, ⟨-, rfl⟩ | ⟨x, y, -, -, -, ⟨-, rfl⟩ | ⟨i, -, hexec⟩⟩⟩ := step_next_cases h
  · exact ⟨_, rfl, rfl, rfl⟩
  · exact ⟨_, rfl, rfl, rfl⟩
  · obtain ⟨-, hform, hleft0⟩ := exec_keeps_load hexec
    exact ⟨u, rfl, hleft0, hform⟩

theorem latchLeft0_left0_iff (t : State) :
    (latchLeft0 t).left0 = true ↔ t.left0 = true ∨ (t.form = .iteration ∧ t.fault = none ∧ t.pc ≠ 0) := by
  rw [latchLeft0_eq]
  simp only [Bool.or_eq_true, decide_eq_true_eq]

/-- Settles O40: `latchLeft0_left0_iff` in an iteration, `latchLeft0_of_run` in the full run. -/
theorem latchFollowsPc : Obligations.LatchFollowsPc := by
  intro s t h
  obtain ⟨u, rfl, hleft0, hform⟩ := step_eq_latchLeft0 h
  refine ⟨fun hs => ?_, fun hs => ?_, step_form h⟩
  · rw [latchLeft0_left0_iff, latchLeft0_fault, latchLeft0_pc, hleft0, hform.trans hs]
    simp only [true_and]
  · rw [latchLeft0_of_run (hform.trans hs), hleft0]

/-! ## The result of an iteration (R151 to R153, decision D12) -/

theorem iterationDigit_eq_some_iff_of_ne_faulted {r : IterationResult} (hend : r.ending ≠ .faulted) (d : Cell) :
    iterationDigit r = some d ↔ r.outs = [d] := by
  obtain ⟨ending, outs, nextA⟩ := r
  rcases outs with _ | ⟨c, _ | ⟨c', rest⟩⟩ <;> simp [iterationDigit]

/-- Settles O51: a faulted iteration has no digit, any other the one its cells are. -/
theorem digitDefinedForOneCell : Obligations.DigitDefinedForOneCell := by
  intro r d
  by_cases hend : r.ending = .faulted
  · simp [iterationDigit, hend]
  · simp [iterationDigit_eq_some_iff_of_ne_faulted hend, hend]

/-- How an iteration that stopped for a reason ended; half an instruction is no end of an iteration. -/
def Fault.iterationEnd : Fault → Option IterationEnd
  | .returned => some .returned
  | .halted => some .halted
  | .faulted _ => some .faulted
  | .fetchPastEnd _ => none

theorem Fault.iterationEnd_eq_some_iff (f : Fault) (e : IterationEnd) :
    f.iterationEnd = some e ↔
      (e = .returned ∧ f = .returned) ∨ (e = .halted ∧ f = .halted) ∨ (e = .faulted ∧ ∃ r, f = .faulted r) := by
  cases f <;> cases e <;> simp [iterationEnd]

theorem hostRunIteration_of_stopped {x : XLen} {fuel : Nat} {cfg : HostConfig} {s t : State} {f : Fault}
    {e : IterationEnd} (hload : load x .iteration cfg = .ok s) (hrun : runUntilStop fuel s = .stopped f t)
    (he : f.iterationEnd = some e) : hostRunIteration x fuel cfg = .result ⟨e, t.out, t.A⟩ := by
  cases f <;> cases he <;> simp [hostRunIteration, hload, hrun]

/-- A result comes from an accepted load and a stop that is an end of an iteration. -/
theorem hostRunIteration_eq_result {x : XLen} {fuel : Nat} {cfg : HostConfig} {r : IterationResult}
    (h : hostRunIteration x fuel cfg = .result r) :
    ∃ s t f, load x .iteration cfg = .ok s ∧ runUntilStop fuel s = .stopped f t ∧
      f.iterationEnd = some r.ending ∧ r.outs = t.out ∧ r.nextA = t.A := by
  unfold hostRunIteration at h
  split at h
  · cases h
  next s hload =>
    split at h
    case h_4 => cases h
    all_goals
      next t hrun =>
        cases h
        exact ⟨s, t, _, hload, hrun, rfl, rfl, rfl⟩

/-- Settles O52: `hostRunIteration_eq_result` and its converse `hostRunIteration_of_stopped`. -/
theorem iterationAnswersAtFirstStop : Obligations.IterationAnswersAtFirstStop := by
  intro x fuel cfg r
  simp only [← Fault.iterationEnd_eq_some_iff]
  constructor
  · intro h
    obtain ⟨s, t, f, hload, hrun, hend, houts, hA⟩ := hostRunIteration_eq_result h
    exact ⟨s, t, f, hload, hrun, houts, hA, hend⟩
  · rintro ⟨s, t, f, hload, hrun, houts, hA, hend⟩
    rw [hostRunIteration_of_stopped hload hrun hend, ← houts, ← hA]

/-! ## The next frontier of the solver (R161) -/

section Retain

variable {try? : Int → Except SolverAnswer Bool}

theorem retainAll_cons_eq_ok {c : Int} {rest kept : List Int} (h : retainAll try? (c :: rest) = .ok kept) :
    ∃ keep later, try? c = .ok keep ∧ retainAll try? rest = .ok later ∧
      kept = if keep then c :: later else later := by
  unfold retainAll at h
  split at h
  · cases h
  next keep hkeep =>
    split at h
    · cases h
    next later hlater =>
      cases h
      exact ⟨keep, later, hkeep, hlater, rfl⟩

theorem mem_retainAll {cands kept : List Int} (h : retainAll try? cands = .ok kept) (w : Int) :
    w ∈ kept ↔ w ∈ cands ∧ try? w = .ok true := by
  induction cands generalizing kept with
  | nil =>
    cases h
    simp
  | cons c rest ih =>
    obtain ⟨keep, later, hkeep, hlater, rfl⟩ := retainAll_cons_eq_ok h
    by_cases hw : w = c
    · subst hw
      cases keep <;> simp [ih hlater, hkeep]
    · cases keep <;> simp [ih hlater, hw]

theorem retainAll_sublist {cands kept : List Int} (h : retainAll try? cands = .ok kept) : kept.Sublist cands := by
  induction cands generalizing kept with
  | nil =>
    cases h
    exact .slnil
  | cons c rest ih =>
    obtain ⟨keep, later, -, hlater, rfl⟩ := retainAll_cons_eq_ok h
    cases keep with
    | true => exact (ih hlater).cons_cons c
    | false => exact (ih hlater).cons c

/-- The search over a list ends early only by an answer of one of its candidates. -/
theorem retainAll_eq_error {cands : List Int} {a : SolverAnswer} (h : retainAll try? cands = .error a) :
    ∃ c, try? c = .error a := by
  induction cands with
  | nil => cases h
  | cons c rest ih =>
    unfold retainAll at h
    split at h
    next hc =>
      cases h
      exact ⟨c, hc⟩
    · split at h
      next hrest =>
        cases h
        exact ih hrest
      · cases h

end Retain

theorem mem_candidatesOf (v w : Int) : w ∈ candidatesOf v ↔ ∃ e : Nat, e < 8 ∧ w = v * 8 + e := by
  simp only [candidatesOf, List.mem_map, List.mem_range, eq_comm]

theorem candidatesOf_nodup (v : Int) : (candidatesOf v).Nodup :=
  List.nodup_range.map fun _ _ h => Int.ofNat_inj.mp (Int.add_left_cancel h)

section Search

variable {x : XLen} {fuel : Nat} {b c : Int} {prog : List Int}

theorem nextFrontier_cons_eq_ok {target : Cell} {v : Int} {rest kept : List Int}
    (h : nextFrontier x fuel b c prog target (v :: rest) = .ok kept) :
    ∃ here later, retainAll (tryCandidate x fuel b c prog target v) (candidatesOf v) = .ok here ∧
      nextFrontier x fuel b c prog target rest = .ok later ∧
      kept = here ++ later.filter fun w => !here.contains w := by
  unfold nextFrontier at h
  split at h
  · cases h
  next here hhere =>
    split at h
    · cases h
    next later hlater =>
      cases h
      exact ⟨here, later, hhere, hlater, rfl⟩

theorem mem_append_filter_not_contains (here later : List Int) (w : Int) :
    (w ∈ here ++ later.filter fun w => !here.contains w) ↔ w ∈ here ∨ w ∈ later := by
  by_cases hw : w ∈ here <;> simp [hw]

theorem mem_nextFrontier {target : Cell} {frontier kept : List Int}
    (h : nextFrontier x fuel b c prog target frontier = .ok kept) (w : Int) :
    w ∈ kept ↔ ∃ v ∈ frontier, w ∈ candidatesOf v ∧ tryCandidate x fuel b c prog target v w = .ok true := by
  induction frontier generalizing kept with
  | nil =>
    cases h
    simp
  | cons v rest ih =>
    obtain ⟨here, later, hhere, hlater, rfl⟩ := nextFrontier_cons_eq_ok h
    rw [mem_append_filter_not_contains, mem_retainAll hhere, ih hlater]
    simp only [List.mem_cons, exists_eq_or_imp]

/-- Each value's extensions are distinct, and one found before is not added again: the next frontier has no repeats,
whether or not the frontier before it had. -/
theorem nextFrontier_nodup {target : Cell} {frontier kept : List Int}
    (h : nextFrontier x fuel b c prog target frontier = .ok kept) : kept.Nodup := by
  induction frontier generalizing kept with
  | nil =>
    cases h
    exact .nil
  | cons v rest ih =>
    obtain ⟨here, later, hhere, hlater, rfl⟩ := nextFrontier_cons_eq_ok h
    refine ((retainAll_sublist hhere).nodup (candidatesOf_nodup v)).append ((ih hlater).filter _) fun w hw hw' => ?_
    simp [hw] at hw'

/-- Settles O53: `mem_nextFrontier` at the eight extensions, and `nextFrontier_nodup`. -/
theorem frontierIsTheRetainedSet : Obligations.FrontierIsTheRetainedSet := by
  refine fun x fuel b c prog target frontier kept h => ⟨fun w => ?_, fun _ => nextFrontier_nodup h⟩
  simp only [mem_nextFrontier h, mem_candidatesOf, ← exists_and_right, and_assoc]

/-! ## The solver's answer (R163) -/

/-- No candidate ends the search with a value found. -/
theorem tryCandidate_ne_found (target : Cell) (v w a : Int) :
    tryCandidate x fuel b c prog target v w ≠ .error (.found a) := by
  unfold tryCandidate
  split
  · split <;> simp
  · simp

theorem nextFrontier_ne_found (target : Cell) (frontier : List Int) (a : Int) :
    nextFrontier x fuel b c prog target frontier ≠ .error (.found a) := by
  induction frontier with
  | nil => exact nofun
  | cons v rest ih =>
    intro h
    unfold nextFrontier at h
    split at h
    next hhere =>
      cases h
      obtain ⟨w, hw⟩ := retainAll_eq_error hhere
      exact tryCandidate_ne_found target v w a hw
    · split at h
      next hrest =>
        cases h
        exact ih hrest
      · cases h

/-- The backward search ends early only without a value: a value is answered after the validation alone. -/
theorem searchBack_ne_found (targets : List Cell) (frontier : List Int) (a : Int) :
    searchBack x fuel b c prog targets frontier ≠ .error (.found a) := by
  induction targets generalizing frontier with
  | nil => exact nofun
  | cons target rest ih =>
    intro h
    unfold searchBack at h
    split at h
    next hnext =>
      cases h
      exact nextFrontier_ne_found target frontier a hnext
    · cases h
    · exact ih _ h

end Search

/-- Settles O54: of the solver's exits only the validation by a full run answers a value. -/
theorem solverAnswerIsQuine : Obligations.SolverAnswerIsQuine := by
  intro x fuel b c prog a h
  unfold findMinimalA at h
  split at h
  · cases h
  split at h
  next hsearch =>
    rw [h] at hsearch
    exact absurd hsearch (searchBack_ne_found _ _ a)
  split at h
  · cases h
  split at h
  next hrun =>
    split at h
    next hout =>
      cases h
      rw [hrun, hout]
    · cases h
  · cases h
  · cases h

end Sys2Proof.Machine
end

section
/-!
SUPPORT AND PROOFS. The exceptions of 60_exceptions.md: the run-time faults are precise and terminal (R178, R180), and
the configuration errors of a load, in the order of its checks (R171 to R174, R183).
-/

namespace Sys2Proof.Machine

/-! ## The run-time faults (R178, R180; decision D7) -/

/-- Settles O13: `step_fault_cases`; each of the three records it tells of holds the `pc` of the step. -/
theorem faultsArePrecise : Obligations.FaultsArePrecise := by
  intro s t r h hr
  obtain ⟨hs, -⟩ := step_next_cases h
  obtain ⟨-, ht, ⟨-, rfl⟩ | ⟨_, _, -, -, -, -, rfl⟩ | ⟨-, _, -, -, rfl⟩⟩ := step_fault_cases h hr
  · exact ⟨hs, rfl, ht⟩
  · exact ⟨hs, rfl, ht⟩
  · exact ⟨hs, rfl, ht⟩

theorem stopReason_of_fault {s : State} {r : FaultRecord} (h : s.fault = some r) :
    stopReason s = some (.faulted r) := by
  simp [stopReason, h]

/-- Settles O8: the record is the first thing tested before a step. -/
theorem faultedHasNoStep : Obligations.FaultedHasNoStep :=
  fun _ _ h => step_of_stopReason (stopReason_of_fault h)

/-! ## The order of the load's checks (R183, decision D22) -/

theorem load_eq_error_iff (x : XLen) (f : Form) (cfg : HostConfig) (e : ConfigError) :
    load x f cfg = .error e ↔ configError x cfg = some e := by
  unfold load
  cases configError x cfg <;> simp

theorem configError_of_odd {cfg : HostConfig} (h : cfg.prog.length % 2 = 1) (x : XLen) :
    configError x cfg = some (.oddLength cfg.prog.length) :=
  if_pos h

/-- Past the length check the first of the three searches that finds something is reported. -/
theorem configError_of_even {cfg : HostConfig} (h : cfg.prog.length % 2 = 0) (x : XLen) :
    configError x cfg =
      ((firstOutOfRange cfg.prog 0).map fun p => .cellOutOfRange p.1 p.2).or
        (((firstReservedPair (tapeOf cfg.prog) 0).map fun p => .reservedComboOperand p.1 p.2).or
          ((firstTooWide x cfg).map fun p => .registerWidthExceeded p.1 p.2)) := by
  unfold configError
  rw [if_neg (by omega)]
  cases firstOutOfRange cfg.prog 0 with
  | some p => rfl
  | none =>
    cases firstReservedPair (tapeOf cfg.prog) 0 with
    | some p => rfl
    | none => cases firstTooWide x cfg <;> rfl

/-- Settles O43: no other check comes before that of the length. -/
theorem oddLengthRefused : Obligations.OddLengthRefused :=
  fun x f cfg h => ⟨(load_eq_error_iff x f cfg _).mpr (configError_of_odd h x), rfl⟩

/-! ## The elements of the tape (R172, R173) -/

/-- Settles O44: the search over the elements is the first one past the length check. -/
theorem cellOutOfRangeRefused : Obligations.CellOutOfRangeRefused := by
  intro x f cfg i v heven hv hout hlower
  have hfirst := firstOutOfRange_eq_some cfg.prog 0 i v hv hout hlower
  rw [Nat.zero_add] at hfirst
  refine ⟨?_, rfl⟩
  rw [load_eq_error_iff, configError_of_even heven, hfirst]
  rfl

theorem tapeOf_getElem?_eq_some_iff {prog : List Int} {a : Nat} {c : Cell} :
    (tapeOf prog)[a]? = some c ↔ ∃ v, prog[a]? = some v ∧ cellOf v = c := by
  rw [tapeOf, List.getElem?_map, Option.map_eq_some_iff]

theorem cellOf_toNat_of_range {v : Int} (h : 0 ≤ v ∧ v ≤ 7) : (cellOf v).toNat = v.toNat := by
  have := cellOf_toNat v
  omega

/-- A reserved pair, on the host's representation of its two cells. -/
theorem isReservedPair_cellOf {o p : Int} (ho : 0 ≤ o ∧ o ≤ 7) (hp : 0 ≤ p ∧ p ≤ 7) :
    isReservedPair (cellOf o) (cellOf p) = true ↔ (o = 0 ∨ o = 2 ∨ o = 5 ∨ o = 6 ∨ o = 7) ∧ p = 7 := by
  rw [isReservedPair_iff_toNat, cellOf_toNat_of_range ho, cellOf_toNat_of_range hp]
  simp only [List.mem_cons, List.not_mem_nil, or_false]
  omega

/-- Settles O45: no element is out of range, so the search over the pairs reports; it finds pair `j`, since a lower
reserved pair would be a lower combo opcode with operand 7. -/
theorem reservedComboOperandRefused : Obligations.ReservedComboOperandRefused := by
  intro x f cfg j o heven hrange ho hseven hopcode hlower
  have horange : 0 ≤ o ∧ o ≤ 7 := hrange o (List.mem_of_getElem? ho)
  have hres : isReservedPair (cellOf o) (cellOf 7) = true :=
    (isReservedPair_cellOf horange (by decide)).mpr ⟨hopcode, rfl⟩
  have hword : packWord (cellOf o) (cellOf 7) = 8 * o.toNat + 7 := by
    rw [packWord, cellOf_toNat_of_range horange]
    rfl
  have hnone : ∀ j' u v, j' < j → (tapeOf cfg.prog)[2 * j']? = some u → (tapeOf cfg.prog)[2 * j' + 1]? = some v →
      isReservedPair u v = false := by
    intro j' u v hj hu hv
    obtain ⟨o', ho', rfl⟩ := tapeOf_getElem?_eq_some_iff.mp hu
    obtain ⟨p', hp', rfl⟩ := tapeOf_getElem?_eq_some_iff.mp hv
    rw [← Bool.not_eq_true,
      isReservedPair_cellOf (hrange o' (List.mem_of_getElem? ho')) (hrange p' (List.mem_of_getElem? hp'))]
    rintro ⟨hopcode', rfl⟩
    exact hlower j' o' hj ho' hp' hopcode'
  have hfirst := firstReservedPair_eq_some (tapeOf cfg.prog) 0 j _ _
    (tapeOf_getElem?_eq_some_iff.mpr ⟨o, ho, rfl⟩) (tapeOf_getElem?_eq_some_iff.mpr ⟨7, hseven, rfl⟩) hres hnone
  rw [hword, Nat.zero_add] at hfirst
  refine ⟨?_, rfl⟩
  rw [load_eq_error_iff, configError_of_even heven, (firstOutOfRange_eq_none_iff _ _).mpr hrange, hfirst]
  rfl

/-! ## The initial values of the registers (R174, decision D14) -/

theorem cellInRange_iff (v : Int) : cellInRange v = true ↔ 0 ≤ v ∧ v ≤ 7 := by
  simp [cellInRange]

/-- The host's well-formedness test is the first three checks of a load. -/
theorem hostTapeWellFormed_iff (prog : List Int) :
    hostTapeWellFormed prog = true ↔
      prog.length % 2 = 0 ∧ firstOutOfRange prog 0 = none ∧ firstReservedPair (tapeOf prog) 0 = none := by
  rw [firstOutOfRange_eq_none_iff, firstReservedPair_eq_none_iff]
  simp only [hostTapeWellFormed, Bool.and_eq_true, beq_iff_eq, List.all_eq_true, cellInRange_iff, and_assoc]
  rfl

theorem load_of_firstTooWide {x : XLen} {cfg : HostConfig} {r : Fin 3} {v : Int}
    (hwf : hostTapeWellFormed cfg.prog = true) (h : firstTooWide x cfg = some (r, v)) (f : Form) :
    load x f cfg = .error (.registerWidthExceeded r v) := by
  obtain ⟨heven, hrange, hpairs⟩ := (hostTapeWellFormed_iff cfg.prog).mp hwf
  rw [load_eq_error_iff, configError_of_even heven, hrange, hpairs, h]
  rfl

theorem firstTooWide_of_registerWidthExceeded {x : XLen} {cfg : HostConfig} {r : Fin 3} {v : Int}
    (h : configError x cfg = some (.registerWidthExceeded r v)) : firstTooWide x cfg = some (r, v) := by
  rcases Nat.mod_two_eq_zero_or_one cfg.prog.length with heven | hodd
  · have hsearches : firstOutOfRange cfg.prog 0 = none ∧ firstReservedPair (tapeOf cfg.prog) 0 = none ∧
        firstTooWide x cfg = some (r, v) := by
      simpa [configError_of_even heven] using h
    exact hsearches.2.2
  · simp [configError_of_odd hodd] at h

theorem firstTooWide_unbounded (cfg : HostConfig) : firstTooWide .unbounded cfg = none := rfl

/-- Settles O46: over a well-formed tape the search over the registers reports, and at the unbounded width it finds
nothing. -/
theorem registerWidthExceededRefused : Obligations.RegisterWidthExceededRefused := by
  refine ⟨fun x f cfg hwf => ⟨fun hA => ?_, fun hA hB => ?_, fun hA hB hC => ?_⟩, ?_, ?_, fun _ _ => rfl⟩
  · exact load_of_firstTooWide hwf (by simp [firstTooWide, hA]) f
  · exact load_of_firstTooWide hwf (by simp [firstTooWide, hA, hB]) f
  · exact load_of_firstTooWide hwf (by simp [firstTooWide, hA, hB, hC]) f
  · intro n h v
    rw [fits_finite_iff, Int.le_sub_one_iff]
  · intro f cfg r v h
    have hwide := firstTooWide_of_registerWidthExceeded ((load_eq_error_iff ..).mp h)
    cases (firstTooWide_unbounded cfg).symm.trans hwide

end Sys2Proof.Machine
end

section
/-!
SUPPORT AND PROOFS. The load and `Run` of 70_reset_and_hazards.md: which configurations a load accepts and the state it
leaves (R200, R203), and when `Run` answers an output (R204).
-/

namespace Sys2Proof.Machine

/-! ## The state of an accepted load (R200, R203) -/

/-- Settles O34: an accepted load leaves the state of reset over a well-formed tape. -/
theorem loadMeetsInvariant : Obligations.LoadMeetsInvariant := by
  intro x f cfg s h
  obtain ⟨htape, -⟩ := load_start h
  obtain ⟨-, rfl⟩ := (load_eq_ok_iff x f cfg s).mp h
  exact State.resetWith_inv _ _ _ f htape

/-- The state of reset is the one with the nine values of R36's table. -/
theorem State.eq_resetWith_iff {s : State} {a b c : RegVal} {p : List Cell} {f : Form} :
    s = State.resetWith a b c p f ↔
      s.A = a ∧ s.B = b ∧ s.C = c ∧ s.pc = 0 ∧ s.out = [] ∧ s.fault = none ∧ s.left0 = false ∧ s.form = f ∧
        s.prog = p := by
  constructor
  · rintro rfl
    simp
  · cases s
    rintro ⟨rfl, rfl, rfl, rfl, rfl, rfl, rfl, rfl, rfl⟩
    rfl

/-- Only the machine's own tape reads back as the host's. -/
theorem map_toNat_eq_iff {p : List Cell} {prog : List Int} (hrange : ∀ v ∈ prog, 0 ≤ v ∧ v ≤ 7) :
    p.map (fun c => (c.toNat : Int)) = prog ↔ p = tapeOf prog := by
  have hinj : Function.Injective fun c : Cell => (c.toNat : Int) :=
    fun _ _ h => BitVec.eq_of_toNat_eq (Int.ofNat.inj h)
  conv_lhs => rw [← tapeOf_toNat hrange]
  exact (List.map_injective_iff.mpr hinj).eq_iff

/-- R83 check 3 on the host's representation: no aligned pair is a combo opcode with operand 7. -/
theorem noReservedPair_tapeOf_iff {prog : List Int} (hrange : ∀ v ∈ prog, 0 ≤ v ∧ v ≤ 7) :
    noReservedPair (tapeOf prog) = true ↔
      ∀ j o p, prog[2 * j]? = some o → prog[2 * j + 1]? = some p → o = 0 ∨ o = 2 ∨ o = 5 ∨ o = 6 ∨ o = 7 → p ≠ 7 := by
  have hpair {j : Nat} {o p : Int} (ho : prog[2 * j]? = some o) (hp : prog[2 * j + 1]? = some p) :
      isReservedPair (cellOf o) (cellOf p) = false ↔ (o = 0 ∨ o = 2 ∨ o = 5 ∨ o = 6 ∨ o = 7 → p ≠ 7) := by
    rw [← Bool.not_eq_true,
      isReservedPair_cellOf (hrange o (List.mem_of_getElem? ho)) (hrange p (List.mem_of_getElem? hp)), not_and]
  rw [noReservedPair_iff]
  constructor
  · intro h j o p ho hp
    exact (hpair ho hp).mp
      (h j _ _ (tapeOf_getElem?_eq_some_iff.mpr ⟨o, ho, rfl⟩) (tapeOf_getElem?_eq_some_iff.mpr ⟨p, hp, rfl⟩))
  · intro h j c d hc hd
    obtain ⟨o, ho, rfl⟩ := tapeOf_getElem?_eq_some_iff.mp hc
    obtain ⟨p, hp, rfl⟩ := tapeOf_getElem?_eq_some_iff.mp hd
    exact (hpair ho hp).mpr (h j o p ho hp)

/-- Settles O42: the load's own condition (`configError_eq_none_iff`) and its state (`load_eq_ok_iff`), both read on the
host's representation, where the elements are in range. -/
theorem loadAcceptsExactlyWellFormed : Obligations.LoadAcceptsExactlyWellFormed := by
  intro x f cfg s
  rw [load_eq_ok_iff, configError_eq_none_iff, State.eq_resetWith_iff]
  by_cases hrange : ∀ v ∈ cfg.prog, 0 ≤ v ∧ v ≤ 7
  · rw [noReservedPair_tapeOf_iff hrange, map_toNat_eq_iff hrange]
    simp only [and_assoc]
  · simp only [hrange, false_and, and_false]

/-! ## `Run` (R204) -/

theorem step_eq_halted_iff (s : State) : step s = .fault .halted ↔ s.Halted := by
  refine ⟨fun h => ?_, fun h => step_of_stopReason (stopReason_of_halted h)⟩
  rcases step_cases s with ⟨_, -, e⟩ | ⟨hs, -⟩ | ⟨-, -, e⟩ | ⟨-, -, _, e⟩ | ⟨-, e⟩
  case inr.inl => exact hs
  all_goals cases h.symm.trans e

/-- An output comes from an accepted load and a run that stops halted. -/
theorem hostRun_eq_output_iff (x : XLen) (fuel : Nat) (cfg : HostConfig) (o : List Cell) :
    hostRun x fuel cfg = .output o ↔
      ∃ s t, load x .run cfg = .ok s ∧ runUntilStop fuel s = .stopped .halted t ∧ t.out = o := by
  constructor
  · intro h
    unfold hostRun at h
    split at h
    · cases h
    next s hload =>
      split at h
      next t hrun =>
        cases h
        exact ⟨s, t, hload, hrun, rfl⟩
      · cases h
      · cases h
  · rintro ⟨s, t, hload, hrun, rfl⟩
    simp [hostRun, hload, hrun]

/-- Settles O48: the state a run stops in with `halted` has no step for that reason, so it is `Halted`. -/
theorem runAnswersHaltedOutput : Obligations.RunAnswersHaltedOutput := by
  intro x fuel cfg o
  rw [hostRun_eq_output_iff]
  constructor
  · rintro ⟨s, t, hload, hrun, hout⟩
    obtain ⟨-, hstep⟩ := runUntilStop_stopped hrun
    exact ⟨s, t, hload, hrun, (step_eq_halted_iff t).mp hstep, hout⟩
  · rintro ⟨s, t, hload, hrun, -, hout⟩
    exact ⟨s, t, hload, hrun, hout⟩

end Sys2Proof.Machine
end
